-- ==== Sys2Proof/Word.lean ====
section
/-! DEFINITION. The words of the chip8-rs CORE: bytes, 16-bit words, immediates and register indices
(spec/00_scope.md R5, R7, R8). -/

namespace Sys2Proof

/-- An 8-bit value: a general register, a timer, a byte of memory (R5 V_WIDTH, TIMER_WIDTH). -/
abbrev Byte := BitVec 8

/-- A 16-bit value: an opcode, I, PC, a stack entry (R5 I_WIDTH, OPCODE_WIDTH; R6 PC_WIDTH). -/
abbrev Word := BitVec 16

/-- The 12-bit field NNN (R81). -/
abbrev Addr12 := BitVec 12

/-- The 4-bit field N of DXYN, a count of rows (R81, R83). -/
abbrev Nibble := BitVec 4

/-- A register index, the value of an X or Y field: all 16 are legal (R20, R83). -/
abbrev Reg := Fin 16

end Sys2Proof
end

