-- ==== Sys2Proof/Syntax.lean ====
section
/-! DEFINITION. The 35 instructions, one constructor for each row of spec/opcode_table.json, in the table's order
(spec/30_encoding.md R84, R85). -/

namespace Sys2Proof

/-- A decoded instruction: "the decoded, typed form of an opcode with its operand fields extracted". -/
inductive Instr where
  /-- 0NNN, SYS NNN (R111) -/
  | sys (nnn : Addr12)
  /-- 00E0, CLS (R191) -/
  | cls
  /-- 00EE, RET (R112) -/
  | ret
  /-- 1NNN, JP NNN (R113) -/
  | jp (nnn : Addr12)
  /-- 2NNN, CALL NNN (R114) -/
  | call (nnn : Addr12)
  /-- 3XNN, SE VX, NN (R115) -/
  | seImm (x : Reg) (nn : Byte)
  /-- 4XNN, SNE VX, NN (R116) -/
  | sneImm (x : Reg) (nn : Byte)
  /-- 5XY0, SE VX, VY (R117) -/
  | seReg (x y : Reg)
  /-- 6XNN, LD VX, NN (R141) -/
  | ldImm (x : Reg) (nn : Byte)
  /-- 7XNN, ADD VX, NN (R142) -/
  | addImm (x : Reg) (nn : Byte)
  /-- 8XY0, LD VX, VY (R143) -/
  | ldReg (x y : Reg)
  /-- 8XY1, OR VX, VY (R144) -/
  | orReg (x y : Reg)
  /-- 8XY2, AND VX, VY (R145) -/
  | andReg (x y : Reg)
  /-- 8XY3, XOR VX, VY (R146) -/
  | xorReg (x y : Reg)
  /-- 8XY4, ADD VX, VY (R147) -/
  | addReg (x y : Reg)
  /-- 8XY5, SUB VX, VY (R148) -/
  | subReg (x y : Reg)
  /-- 8XY6, SHR VX {, VY} (R149) -/
  | shr (x y : Reg)
  /-- 8XY7, SUBN VX, VY (R150) -/
  | subn (x y : Reg)
  /-- 8XYE, SHL VX {, VY} (R151) -/
  | shl (x y : Reg)
  /-- 9XY0, SNE VX, VY (R118) -/
  | sneReg (x y : Reg)
  /-- ANNN, LD I, NNN (R171) -/
  | ldI (nnn : Addr12)
  /-- BNNN, JP V0, NNN (R119) -/
  | jpV0 (nnn : Addr12)
  /-- CXNN, RND VX, NN (R152) -/
  | rnd (x : Reg) (nn : Byte)
  /-- DXYN, DRW VX, VY, N (R192) -/
  | drw (x y : Reg) (n : Nibble)
  /-- EX9E, SKP VX (R211) -/
  | skp (x : Reg)
  /-- EXA1, SKNP VX (R212) -/
  | sknp (x : Reg)
  /-- FX07, LD VX, DT (R213) -/
  | ldVxDt (x : Reg)
  /-- FX0A, LD VX, K (R214) -/
  | ldVxK (x : Reg)
  /-- FX15, LD DT, VX (R216) -/
  | ldDtVx (x : Reg)
  /-- FX18, LD ST, VX (R217) -/
  | ldStVx (x : Reg)
  /-- FX1E, ADD I, VX (R172) -/
  | addI (x : Reg)
  /-- FX29, LD F, VX (R173) -/
  | ldF (x : Reg)
  /-- FX33, LD B, VX (R174) -/
  | ldB (x : Reg)
  /-- FX55, LD [I], VX (R175) -/
  | dump (x : Reg)
  /-- FX65, LD VX, [I] (R176) -/
  | load (x : Reg)
  deriving DecidableEq, Repr

end Sys2Proof
end

