-- ==== Sys2Proof/Config.lean ====
section
/-! DEFINITION. What is fixed for one machine: the fixed parameters of spec/00_scope.md R5, the types of the
open parameters of R6, and the free value drawn by CXNN (spec/10_state.md R36). The defaults of the open
parameters stand in Sys2Proof/Machine/Params.lean. -/

namespace Sys2Proof

/-- MEM_SIZE of R5: addresses 0x000 to 0xFFF. -/
def Config.memSize : Nat := 4096

/-- PROG_BASE of R5: where the program image is loaded. -/
def Config.progBase : Nat := 0x200

/-- PROG_MAX of R5: the longest program image. -/
def Config.progMax : Nat := 3584

/-- SHIFT_SOURCE of R6: the register 8XY6 and 8XYE shift (D7). -/
inductive ShiftSource where
  | vx
  | vy
  deriving DecidableEq, Repr

/-- WAIT_KEY_SELECT of R6: what names the key FX0A waits for (D11). -/
inductive WaitKeySelect where
  | registerValue
  | operandIndex
  deriving DecidableEq, Repr

/-- SYS_BEHAVIOUR of R6: what 0NNN does (D16). -/
inductive SysBehaviour where
  | noop
  | fault
  deriving DecidableEq, Repr

/-- EMPTY_RET of R6: what 00EE does on an empty stack (D4). -/
inductive EmptyRet where
  | fault
  | noop
  deriving DecidableEq, Repr

/-- The open parameters of R6 that choose a behaviour. PC_WIDTH is fixed at 16 by `Word`, RESET_KIND has the one
value `reconstruct` (D23), and RAND is `Config.rand`. -/
structure Params where
  shiftSource : ShiftSource
  logicClearsVf : Bool
  waitKeySelect : WaitKeySelect
  sysBehaviour : SysBehaviour
  emptyRet : EmptyRet
  /-- FONT: the bytes of the glyph table, address 0x000 upwards (R61). -/
  font : List Byte
  /-- INIT_FILL: memory outside the glyph table and the image at reset (D18). -/
  initFill : Byte
  deriving DecidableEq, Repr

/-- FREE VALUE (log entry 2). The byte the n-th execution of CXNN draws: `rand8()` of 00_scope R9, the input
`rand_in` of 10_state R38, under no law (R36, D26). It has no body, so nothing can be proved of any draw. -/
opaque Config.rand : Nat → Byte

end Sys2Proof
end

