-- ==== Sys2Proof/Machine/Params.lean ====
section
/-! DEFINITION. The defaults of the open parameters of spec/00_scope.md R6, as spec/92_eei_decisions.md gives them.
The machine `core` takes these; Machine/Variant.lean takes any. -/

namespace Sys2Proof.Machine

/-- FONT's default: the 16 glyphs of five bytes, one line a digit (20_memory R61, D20; log entry 4). -/
def standardFont : List Byte :=
  [0xF0, 0x90, 0x90, 0x90, 0xF0] ++
  [0x20, 0x60, 0x20, 0x20, 0x70] ++
  [0xF0, 0x10, 0xF0, 0x80, 0xF0] ++
  [0xF0, 0x10, 0xF0, 0x10, 0xF0] ++
  [0x90, 0x90, 0xF0, 0x10, 0x10] ++
  [0xF0, 0x80, 0xF0, 0x10, 0xF0] ++
  [0xF0, 0x80, 0xF0, 0x90, 0xF0] ++
  [0xF0, 0x10, 0x20, 0x40, 0x40] ++
  [0xF0, 0x90, 0xF0, 0x90, 0xF0] ++
  [0xF0, 0x90, 0xF0, 0x10, 0xF0] ++
  [0xF0, 0x90, 0xF0, 0x90, 0x90] ++
  [0xE0, 0x90, 0xE0, 0x90, 0xE0] ++
  [0xF0, 0x80, 0x80, 0x80, 0xF0] ++
  [0xE0, 0x90, 0x90, 0x90, 0xE0] ++
  [0xF0, 0x80, 0xF0, 0x80, 0xF0] ++
  [0xF0, 0x80, 0xF0, 0x80, 0x80]

/-- The defaults, each the spec's own choice: D7, D9, D11, D16, D4, D20, D18 (log entries 3 to 10). -/
def defaults : Params where
  shiftSource := .vx
  logicClearsVf := false
  waitKeySelect := .registerValue
  sysBehaviour := .noop
  emptyRet := .fault
  font := standardFont
  initFill := 0

end Sys2Proof.Machine
end

