-- ==== Sys2Proof/Machine/State.lean ====
section
/-! DEFINITION. The state of the core as plain data, the faults it records and the state after reset
(spec/10_state.md R20 to R42, spec/60_exceptions.md R230). -/

namespace Sys2Proof.Machine

/-- Memory as (address, byte) cells, addresses strictly rising, no cell equal to what an unlisted address reads as
(`Memory.wf`); an unlisted address reads as `Memory.initial`. -/
abbrev Memory := List Host.Cell

/-- The 16 general registers V0 to VF (R20). -/
abbrev Regs := Vector Byte 16

/-- One row of 64 cells, px = 0 first. -/
abbrev Row := Vector Bool 64

/-- The 64 x 32 one-bit cells: 32 rows, py = 0 first (R32, D15). -/
abbrev Framebuffer := Vector Row 32

/-- The kind of access a memory fault records (R230, D34). -/
inductive AccessKind where
  | fetch
  | read
  | write
  deriving DecidableEq, Repr

/-- The faults of R230 with the information each records. They are the values of the core's FAULT register
(R35): taking one is a NEXT state, the fault entry of R236, which `takeFault` performs. No step of this model stops
with one as its outcome (log entry 1), so each is safe: the model halts exactly where the spec halts the core. -/
inductive Fault where
  /-- Code 1. Raised by the decode step of a cycle, and by SYS under SYS_BEHAVIOUR = fault. Safe. -/
  | decode (w pc : Word)
  /-- Code 2. Raised by the fetch, FX33, FX55, FX65 and DXYN; `a` is the exact first out-of-range address (R232).
  Safe. -/
  | memory (a : Nat) (kind : AccessKind) (pc : Word)
  /-- Code 3. Raised by DXYN for a set sprite bit off the grid (R193). Safe. -/
  | framebuffer (px py : Nat) (pc : Word)
  /-- Code 4. Raised by 2NNN with SP = 16 (R27). Safe. -/
  | stackOverflow (pc : Word)
  /-- Code 5. Raised by 00EE with SP = 0 under EMPTY_RET = fault (R28, D4). Safe. -/
  | stackUnderflow (pc : Word)
  /-- Code 6. Raised by EX9E, EXA1 and FX0A with a key index above 15 (R210). Safe. -/
  | keypad (k : Byte) (pc : Word)
  /-- Code 7. Raised by reset with a program image over 3584 bytes (R271). Safe. -/
  | load (len : Nat)
  deriving DecidableEq, Repr

/-- Reasons for giving an instruction no meaning. -/
inductive Refusal where
  /-- Would be answered by an arm of `exec` for an instruction not modelled yet; no arm answers it. Safe: it says
  nothing about the hardware. -/
  | notModelled (mnemonic : String)
  deriving DecidableEq, Repr

/-- Everything the spec gives the machine, and one field of the model's own (`draws`). -/
structure State where
  /-- V[0] to V[15] (R20); V[15] is VF, the flag register (R21) -/
  v : Regs
  /-- I (R25) -/
  i : Word
  /-- PC (R23): during a cycle, the address of the executing instruction's first byte -/
  pc : Word
  /-- SP (R26): how many entries of the stack are live, 0 to 16 -/
  sp : Fin 17
  /-- STACK[0] to STACK[15] (R26) -/
  stack : Vector Word 16
  /-- DT (R29) -/
  dt : Byte
  /-- ST (R30) -/
  st : Byte
  /-- KEY[0] to KEY[15] (R31): true = pressed -/
  keys : Vector Bool 16
  /-- FB (R32) -/
  fb : Framebuffer
  /-- MEM (R33) -/
  mem : Memory
  /-- BEEP (R34) -/
  beep : Bool
  /-- FAULT (R35): `none`, or the recorded fault; the core is halted when it is not `none` -/
  fault : Option Fault
  /-- THE MODEL'S OWN (log entry 2): how many bytes CXNN has drawn, the index of the next free value -/
  draws : Nat
  deriving DecidableEq, Repr

/-- The state after reset with the empty image: the table of R42. Memory lists nothing: every address reads as its
reset content. `draws` is the model's own counter (log entry 2). -/
def State.reset : State where
  v := Vector.replicate 16 0
  i := 0
  pc := 0x200
  sp := 0
  stack := Vector.replicate 16 0
  dt := 0
  st := 0
  keys := Vector.replicate 16 false
  fb := Vector.replicate 32 (Vector.replicate 64 false)
  mem := []
  beep := false
  fault := none
  draws := 0

end Sys2Proof.Machine
end

