-- ==== Sys2Proof/Machine/Ops.lean ====
section
/-! DEFINITION. The named operations over registers, memory, stack and framebuffer, taking a fault, the timer units
and the cycle: the pseudocode primitives of spec/00_scope.md R9 and the cycle of spec/10_state.md R40. An operation
that may raise answers in `Except Fault`; `complete` turns that into the outcome of an instruction. -/

namespace Sys2Proof.Machine

/-! ### Registers (R20, R21) -/

/-- VF, register 15, the flag register (R21). -/
def vf : Reg := 15

/-- `V[x]` of R9. -/
def State.reg (s : State) (x : Reg) : Byte := s.v[x.val]

/-- `V[x] <- b` of R9: an unconditional overwrite, no register hard-wired (R20). -/
def State.setReg (s : State) (x : Reg) (b : Byte) : State := { s with v := s.v.set x.val b }

/-- A flag bit as the value VF takes: 1 or 0. -/
def flagByte (f : Bool) : Byte := if f then 1 else 0

/-- `V[0xF] <- (if f then 1 else 0)` (R21). -/
def State.setFlag (s : State) (f : Bool) : State := s.setReg vf (flagByte f)

/-- `I <- w` (R25). -/
def State.setI (s : State) (w : Word) : State := { s with i := w }

/-- `pc <- target` (R9, R110). -/
def State.goto (s : State) (target : Word) : State := { s with pc := target }

/-- `pc <- PC + 2`, the normal advance (R110). -/
def State.next (s : State) : State := s.goto (s.pc + 2)

/-- `if c: pc <- PC + 4 else pc <- PC + 2`, the skip (R110). -/
def State.skipIf (s : State) (c : Bool) : State := s.goto (if c then s.pc + 4 else s.pc + 2)

/-- `DT <- b` (R29). -/
def State.setDt (s : State) (b : Byte) : State := { s with dt := b }

/-- `ST <- b` (R30). -/
def State.setSt (s : State) (b : Byte) : State := { s with st := b }

/-- Replace the framebuffer, by the pixel writer alone (R32). -/
def State.setFb (s : State) (fb : Framebuffer) : State := { s with fb := fb }

/-- Replace memory, by FX33 and FX55 alone (R69). -/
def State.setMem (s : State) (m : Memory) : State := { s with mem := m }

/-- Replace the register file, by FX65. -/
def State.setRegs (s : State) (v : Regs) : State := { s with v := v }

/-- `KEY[k] <- b`, the host's write between cycles (R31, R38). -/
def State.setKey (s : State) (k : Fin 16) (b : Bool) : State := { s with keys := s.keys.set k.val b }

/-- `KEY[k]` of R9. -/
def State.key (s : State) (k : Fin 16) : Bool := s.keys[k.val]

/-- One draw is used up (R36, log entry 2). -/
def State.countDraw (s : State) : State := { s with draws := s.draws + 1 }

/-- `rand8()` of R9: the free value of this draw (R36, D26, log entry 2). -/
def State.rand8 (s : State) : Byte := Config.rand s.draws

/-! ### Taking a fault (R236) -/

/-- FAULT ENTRY (R236): the record is written, BEEP becomes 0, and nothing else changes, PC, timers and memory
included. -/
def takeFault (s : State) (f : Fault) : State := { s with fault := some f, beep := false }

/-- The outcome of an instruction started in `s` whose working copy ends as `r`: the working copy is committed if
nothing was raised, else the fault is taken from `s` and nothing of the working copy is kept (00_scope R10, R236). -/
def complete (s : State) (r : Except Fault State) : Host.Outcome State Fault Refusal :=
  match r with
  | .ok t => .next t
  | .error f => .next (takeFault s f)

/-- The numeric code of the fault record (R230, D3). -/
def faultCode : Option Fault → Nat
  | none => 0
  | some (.decode _ _) => 1
  | some (.memory _ _ _) => 2
  | some (.framebuffer _ _ _) => 3
  | some (.stackOverflow _) => 4
  | some (.stackUnderflow _) => 5
  | some (.keypad _ _) => 6
  | some (.load _) => 7

/-! ### Memory (20_memory R60 to R75) -/

/-- What an address reads as while nothing has been written there: the glyph table and INIT_FILL (R42, R61, D18,
D20; log entries 3 and 4). -/
def Memory.initial (a : Nat) : Byte := defaults.font.getD a defaults.initFill

/-- The byte at `a`: its cell, else its reset content. -/
def Memory.read : Memory → Nat → Byte
  | [], a => Memory.initial a
  | c :: m, a => if c.1 = a then c.2 else Memory.read m a

/-- `m` with no cell for `a`. -/
def Memory.erase (m : Memory) (a : Nat) : Memory := m.filter (fun c => c.1 != a)

/-- `m` with a cell for `a` put before the first higher address. -/
def Memory.insert : Memory → Nat → Byte → Memory
  | [], a, b => [(a, b)]
  | c :: m, a, b => if a < c.1 then (a, b) :: c :: m else c :: Memory.insert m a b

/-- The byte at `a` becomes `b`; canonical, so writing the reset content removes the cell. -/
def Memory.write (m : Memory) (a : Nat) (b : Byte) : Memory :=
  if b = Memory.initial a then Memory.erase m a else Memory.insert (Memory.erase m a) a b

/-- The canonical form: addresses strictly rising, all inside the memory, and no cell equal to what its address reads
as unlisted. -/
abbrev Memory.wf (m : Memory) : Prop :=
  (m.map Prod.fst).Pairwise (· < ·) ∧ ∀ c ∈ m, c.1 < Config.memSize ∧ c.2 ≠ Memory.initial c.1

/-- `MemRead(a, 1)` of R62 by the instruction at `pc`: raises MemoryFault above 0xFFF. `a` is the exact address. -/
def memRead (kind : AccessKind) (pc : Word) (m : Memory) (a : Nat) : Except Fault Byte :=
  if 0xFFF < a then .error (.memory a kind pc) else .ok (Memory.read m a)

/-- `MemWrite(a, 1, b)` of R62 by the instruction at `pc`: raises MemoryFault above 0xFFF. Every address below is
writable (R69, D38). -/
def memWrite (pc : Word) (m : Memory) (a : Nat) (b : Byte) : Except Fault Memory :=
  if 0xFFF < a then .error (.memory a .write pc) else .ok (Memory.write m a b)

/-- Write bytes at `a`, `a + 1`, … in that order. -/
def memWriteAll (pc : Word) (m : Memory) (a : Nat) : List Byte → Except Fault Memory
  | [] => .ok m
  | b :: bs =>
    match memWrite pc m a b with
    | .ok m' => memWriteAll pc m' (a + 1) bs
    | .error f => .error f

/-- The loop of FX55 (R175) run for k = 0 to n - 1: `MemWrite(I, 1, V[k]); I <- (I + 1) mod 65536`. The first
iterations come first, so the fault is that of the first address out of range. -/
def dumpLoop (pc : Word) (v : Regs) (m : Memory) (i : Word) : Nat → Except Fault (Memory × Word)
  | 0 => .ok (m, i)
  | n + 1 =>
    match dumpLoop pc v m i n with
    | .error f => .error f
    | .ok (m', i') =>
      match memWrite pc m' i'.toNat (v[n]?.getD 0) with
      | .error f => .error f
      | .ok m'' => .ok (m'', i' + 1)

/-- The loop of FX65 (R176) run for k = 0 to n - 1: `V[k] <- MemRead(I, 1); I <- (I + 1) mod 65536`. -/
def loadLoop (pc : Word) (m : Memory) (v : Regs) (i : Word) : Nat → Except Fault (Regs × Word)
  | 0 => .ok (v, i)
  | n + 1 =>
    match loadLoop pc m v i n with
    | .error f => .error f
    | .ok (v', i') =>
      match memRead .read pc m i'.toNat with
      | .error f => .error f
      | .ok b => .ok (v'.setIfInBounds n b, i' + 1)

/-! ### Call stack (R26 to R28) -/

/-- `Push(a)` (R27). -/
def State.push (s : State) (a : Word) : Except Fault State :=
  if h : s.sp.val < 16 then
    .ok { s with stack := s.stack.set s.sp.val a, sp := ⟨s.sp.val + 1, by omega⟩ }
  else .error (.stackOverflow s.pc)

/-- `Pop()` (R28): the value and the state with SP decremented; the entry itself stays in the array. -/
def State.pop (s : State) : Except Fault (Word × State) :=
  if h : s.sp.val = 0 then .error (.stackUnderflow s.pc)
  else .ok (s.stack[s.sp.val - 1], { s with sp := ⟨s.sp.val - 1, by omega⟩ })

/-! ### Framebuffer (R32, R190 to R194) -/

/-- `FB[px, py]`; off the grid there is no cell, and this reads false there. -/
def pixel (fb : Framebuffer) (px py : Nat) : Bool :=
  if h : px < 64 ∧ py < 32 then (fb[py]'h.2)[px]'h.1 else false

/-- `FB[px, py] <- FB[px, py] ^ 1`. -/
def togglePixel (fb : Framebuffer) (px py : Nat) : Framebuffer :=
  if h : px < 64 ∧ py < 32 then
    fb.set py ((fb[py]'h.2).set px (!(fb[py]'h.2)[px]'h.1) h.1) h.2
  else fb

/-- The framebuffer with all 2048 cells 0 (R191). -/
def clearFb : Framebuffer := Vector.replicate 32 (Vector.replicate 64 false)

/-- The sprite bit of column `c`, 0 to 7: bit `7 - c`, the most significant leftmost (R190). -/
def spriteBit (b : Byte) (c : Nat) : Bool := b.getLsbD (7 - c)

/-- One step of the inner loop of R192: a zero bit does nothing; a set bit off the grid raises; else the cell is
inverted and a cell that was 1 is a collision (R193, R194). The working copy is the framebuffer and VF as a flag. -/
def drawPixel (pc : Word) (px py : Nat) (bit : Bool) (c : Framebuffer × Bool) :
    Except Fault (Framebuffer × Bool) :=
  if bit then
    if 63 < px ∨ 31 < py then .error (.framebuffer px py pc)
    else .ok (togglePixel c.1 px py, c.2 || pixel c.1 px py)
  else .ok c

/-- The columns 0 to n - 1 of one row of the sprite, in that order (R192). -/
def drawRow (pc : Word) (b : Byte) (x0 py : Nat) (c : Framebuffer × Bool) : Nat → Except Fault (Framebuffer × Bool)
  | 0 => .ok c
  | n + 1 =>
    match drawRow pc b x0 py c n with
    | .error f => .error f
    | .ok c' => drawPixel pc (x0 + n) py (spriteBit b n) c'

/-- The rows 0 to n - 1 of the sprite at `base`, in that order (R192). -/
def drawRows (pc : Word) (m : Memory) (base x0 y0 : Nat) (c : Framebuffer × Bool) :
    Nat → Except Fault (Framebuffer × Bool)
  | 0 => .ok c
  | n + 1 =>
    match drawRows pc m base x0 y0 c n with
    | .error f => .error f
    | .ok c' =>
      match memRead .read pc m (base + n) with
      | .error f => .error f
      | .ok b => drawRow pc b x0 (y0 + n) c' 8

/-! ### The cycle (R40) -/

/-- One decrement of a timer that never goes below 0 (R250, R251). -/
def countDown (t : Byte) : Byte := if t = 0 then 0 else t - 1

/-- The timer units at the end of a committed cycle, and BEEP: 1 exactly when the decrement takes ST from 2 to 1
(R250, R251, D21). -/
def timerTick (s : State) : State :=
  { s with dt := countDown s.dt, beep := s.st == 2, st := countDown s.st }

/-- The end of a cycle whose execute step left `t`: the timers run unless the instruction took a fault (R40, R236).
The core is not halted when an instruction starts, so a record in `t` is one it took. -/
def endCycle (t : State) : State := if t.fault.isSome then t else timerTick t

/-- The fetch (R63, R64): high byte first; the fault is that of `PC` if it is out of range, else of `PC + 1`. -/
def fetch (s : State) : Except Fault Word :=
  match memRead .fetch s.pc s.mem s.pc.toNat with
  | .error f => .error f
  | .ok hi =>
    match memRead .fetch s.pc s.mem (s.pc.toNat + 1) with
    | .error f => .error f
    | .ok lo => .ok (wordOfBytes hi lo)

/-- The decode step, raising DecodeFault(w) (R231): the two fetched bytes go through the decoder. -/
def decodeStep (pc w : Word) : Except Fault Instr :=
  match decode [highByte w, lowByte w] with
  | .ok (i, _) => .ok i
  | .error _ => .error (.decode w pc)

/-- One cycle (R40) around the execute step `ex`, with the priority of R239: a halted core changes nothing (R237);
then the fetch; then the decode; then the instruction; then the timers. -/
def cycle (ex : Instr → State → Host.Outcome State Fault Refusal) (s : State) : Host.Outcome State Fault Refusal :=
  match s.fault with
  | some _ => .next s
  | none =>
    match fetch s with
    | .error f => .next (takeFault s f)
    | .ok w =>
      match decodeStep s.pc w with
      | .error f => .next (takeFault s f)
      | .ok i =>
        match ex i s with
        | .next t => .next (endCycle t)
        | .fault f => .fault f
        | .refused r => .refused r

end Sys2Proof.Machine
end

