-- ==== Sys2Proof/Machine/Flags.lean ====
section
/-! DEFINITION. The flag computations: carry, no-borrow and shifted-out bit (spec/41_alu.md R140, R147 to R151).
The collision flag of DXYN is computed by the pixel writer, `drawPixel` of Ops.lean (R194). -/

namespace Sys2Proof.Machine

/-- Carry of 8XY4: 1 if the exact sum exceeds 255 (R147). -/
def carryOut (a b : Byte) : Bool := 255 < a.toNat + b.toNat

/-- NOT borrow of `a - b`: 1 if the minuend is not less than the subtrahend (R148, R150). -/
def noBorrow (a b : Byte) : Bool := b.toNat ≤ a.toNat

/-- The bit 8XY6 shifts out: the pre-shift least significant bit (R149). -/
def shiftedOutRight (b : Byte) : Bool := b.getLsbD 0

/-- The bit 8XYE shifts out: the pre-shift most significant bit (R151). -/
def shiftedOutLeft (b : Byte) : Bool := b.getLsbD 7

/-- `(a + b) mod 256`, exact and then reduced (R140). -/
def addMod (a b : Byte) : Byte := BitVec.ofNat 8 (a.toNat + b.toNat)

/-- `(a - b) mod 256` with the mathematical modulo (R140). -/
def subMod (a b : Byte) : Byte := BitVec.ofInt 8 ((a.toNat : Int) - (b.toNat : Int))

/-- `b >> 1` (R149). -/
def shiftRight (b : Byte) : Byte := BitVec.ofNat 8 (b.toNat / 2)

/-- `(b << 1) mod 256` (R151). -/
def shiftLeft (b : Byte) : Byte := BitVec.ofNat 8 (b.toNat * 2)

end Sys2Proof.Machine
end

