-- ==== Sys2Proof/Machine/Alu.lean ====
section
/-! DEFINITION. ALU and register operations: LD, ADD, OR, AND, XOR, SUB, SHR, SUBN, SHL and RND
(spec/41_alu.md R140 to R152). None touches memory and none raises a fault. -/

namespace Sys2Proof.Machine

/-- The three logic instructions under either LOGIC_CLEARS_VF (R144 to R146, D9): the result, then VF cleared if the
parameter says so, then `pc <- PC + 2`. -/
def logicOp (clears : Bool) (x : Reg) (result : Byte) (s : State) : State :=
  if clears then ((s.setReg x result).setReg vf 0).next else (s.setReg x result).next

/-- The three add and subtract instructions (R147, R148, R150): operands read first, the result written, then the
flag, so that with X = F the flag is what stays (D6). -/
def arithOp (x : Reg) (result : Byte) (flag : Bool) (s : State) : State := ((s.setReg x result).setFlag flag).next

/-- The two shifts under either SHIFT_SOURCE (R149, R151, D7, D8). `vx`: the flag is written first, from V[X]; then
the shift reads V[X] again, after that write, so with X = F it shifts the flag. `vy`: one snapshot of V[Y] (C9). -/
def shiftOp (source : ShiftSource) (out : Byte → Bool) (shift : Byte → Byte) (x y : Reg) (s : State) : State :=
  match source with
  | .vx =>
    let t := s.setFlag (out (s.reg x))
    (t.setReg x (shift (t.reg x))).next
  | .vy =>
    let v := s.reg y
    ((s.setFlag (out v)).setReg x (shift v)).next

/-- 6XNN, LD VX, NN (R141). -/
def execLdImm (x : Reg) (nn : Byte) (s : State) : Host.Outcome State Fault Refusal := .next (s.setReg x nn).next

/-- 7XNN, ADD VX, NN (R142): no flag. -/
def execAddImm (x : Reg) (nn : Byte) (s : State) : Host.Outcome State Fault Refusal :=
  .next (s.setReg x (addMod (s.reg x) nn)).next

/-- 8XY0, LD VX, VY (R143). -/
def execLdReg (x y : Reg) (s : State) : Host.Outcome State Fault Refusal := .next (s.setReg x (s.reg y)).next

/-- 8XY1, OR VX, VY (R144). -/
def execOrReg (x y : Reg) (s : State) : Host.Outcome State Fault Refusal :=
  .next (logicOp defaults.logicClearsVf x (s.reg x ||| s.reg y) s)

/-- 8XY2, AND VX, VY (R145). -/
def execAndReg (x y : Reg) (s : State) : Host.Outcome State Fault Refusal :=
  .next (logicOp defaults.logicClearsVf x (s.reg x &&& s.reg y) s)

/-- 8XY3, XOR VX, VY (R146). -/
def execXorReg (x y : Reg) (s : State) : Host.Outcome State Fault Refusal :=
  .next (logicOp defaults.logicClearsVf x (s.reg x ^^^ s.reg y) s)

/-- 8XY4, ADD VX, VY (R147). -/
def execAddReg (x y : Reg) (s : State) : Host.Outcome State Fault Refusal :=
  .next (arithOp x (addMod (s.reg x) (s.reg y)) (carryOut (s.reg x) (s.reg y)) s)

/-- 8XY5, SUB VX, VY (R148): `V[X] - V[Y]`. -/
def execSubReg (x y : Reg) (s : State) : Host.Outcome State Fault Refusal :=
  .next (arithOp x (subMod (s.reg x) (s.reg y)) (noBorrow (s.reg x) (s.reg y)) s)

/-- 8XY6, SHR VX {, VY} (R149). -/
def execShr (x y : Reg) (s : State) : Host.Outcome State Fault Refusal :=
  .next (shiftOp defaults.shiftSource shiftedOutRight shiftRight x y s)

/-- 8XY7, SUBN VX, VY (R150): `V[Y] - V[X]`. -/
def execSubn (x y : Reg) (s : State) : Host.Outcome State Fault Refusal :=
  .next (arithOp x (subMod (s.reg y) (s.reg x)) (noBorrow (s.reg y) (s.reg x)) s)

/-- 8XYE, SHL VX {, VY} (R151). -/
def execShl (x y : Reg) (s : State) : Host.Outcome State Fault Refusal :=
  .next (shiftOp defaults.shiftSource shiftedOutLeft shiftLeft x y s)

/-- CXNN, RND VX, NN (R152): `V[X] <- rand8() & NN`; the draw is a free value (R36, log entry 2). -/
def execRnd (x : Reg) (nn : Byte) (s : State) : Host.Outcome State Fault Refusal :=
  .next ((s.setReg x (s.rand8 &&& nn)).countDraw).next

end Sys2Proof.Machine
end

