-- ==== Sys2Proof/Machine/Operands.lean ====
section
/-! DEFINITION. The operand forms (spec/30_encoding.md R81, R83; spec/42_index_memory.md R170): immediates as they
stand, the address I + k, the digits of FX33, the glyph address of FX29, the target of BNNN and the key index. -/

namespace Sys2Proof.Machine

/-- A 12-bit address operand as a 16-bit value, `zext_16(NNN)` of R9: no field is sign-extended (R83). -/
def zext16 (nnn : Addr12) : Word := nnn.setWidth 16

/-- The address of the k-th byte an instruction moves, `I + k`, exact (R170). -/
def dataAddr (i : Word) (k : Nat) : Nat := i.toNat + k

/-- The target of BNNN: `NNN + V[0]`, at most 0x10FE, so the 16 bits hold the exact sum (R119, R23). -/
def offsetTarget (nnn : Addr12) (v0 : Byte) : Word := BitVec.ofNat 16 (nnn.toNat + v0.toNat)

/-- `(I + V[X]) mod 65536` (R172, D25). -/
def indexPlus (i : Word) (b : Byte) : Word := BitVec.ofNat 16 (i.toNat + b.toNat)

/-- The address of a glyph, `V[X] * 5`, from the whole register value (R173). -/
def glyphAddr (b : Byte) : Word := BitVec.ofNat 16 (b.toNat * 5)

/-- The hundreds, tens and ones digits (R174). -/
def bcdDigits (b : Byte) : List Byte :=
  [BitVec.ofNat 8 (b.toNat / 100), BitVec.ofNat 8 (b.toNat / 10 % 10), BitVec.ofNat 8 (b.toNat % 10)]

/-- The keypad slot a key index names: raises KeypadFault above 15 (R210, R238, D12). -/
def keySlot (pc : Word) (k : Byte) : Except Fault (Fin 16) :=
  if h : k.toNat < 16 then .ok ⟨k.toNat, h⟩ else .error (.keypad k pc)

/-- The key index FX0A names (R214, WAIT_KEY_SELECT, D11). -/
def waitKeyIndex (sel : WaitKeySelect) (x : Reg) (vx : Byte) : Byte :=
  match sel with
  | .registerValue => vx
  | .operandIndex => BitVec.ofNat 8 x.val

end Sys2Proof.Machine
end

