-- ==== Sys2Proof/Machine/Control.lean ====
section
/-! DEFINITION. Control flow: SYS, RET, JP, CALL, the four register skips and JP V0 (spec/40_control_flow.md R110 to
R119). An operation whose rule has an open parameter of R6 takes it as an argument; the meaning passes the default. -/

namespace Sys2Proof.Machine

/-- SYS NNN under either SYS_BEHAVIOUR (R111, D16): a no-op that advances the PC, or DecodeFault of its own word. -/
def sysOp (behaviour : SysBehaviour) (nnn : Addr12) (s : State) : Host.Outcome State Fault Refusal :=
  match behaviour with
  | .noop => .next s.next
  | .fault => .next (takeFault s (.decode (encode (.sys nnn)) s.pc))

/-- RET under either EMPTY_RET (R112, R28, D4): pop the address of the CALL and resume 2 past it. -/
def retOp (empty : EmptyRet) (s : State) : Host.Outcome State Fault Refusal :=
  match s.pop with
  | .ok (a, t) => .next (t.goto (a + 2))
  | .error f =>
    match empty with
    | .fault => .next (takeFault s f)
    | .noop => .next s.next

/-- 0NNN, SYS NNN (R111). -/
def execSys (nnn : Addr12) (s : State) : Host.Outcome State Fault Refusal := sysOp defaults.sysBehaviour nnn s

/-- 00EE, RET (R112). -/
def execRet (s : State) : Host.Outcome State Fault Refusal := retOp defaults.emptyRet s

/-- 1NNN, JP NNN (R113): `pc <- NNN`, odd targets taken as they stand. -/
def execJp (nnn : Addr12) (s : State) : Host.Outcome State Fault Refusal := .next (s.goto (zext16 nnn))

/-- 2NNN, CALL NNN (R114): `Push(PC); pc <- NNN`; the value pushed is the address of this CALL. -/
def execCall (nnn : Addr12) (s : State) : Host.Outcome State Fault Refusal :=
  complete s ((s.push s.pc).map fun t => t.goto (zext16 nnn))

/-- 3XNN, SE VX, NN (R115): skip if `V[X] = NN`. -/
def execSeImm (x : Reg) (nn : Byte) (s : State) : Host.Outcome State Fault Refusal := .next (s.skipIf (s.reg x == nn))

/-- 4XNN, SNE VX, NN (R116): skip if `V[X] != NN`. -/
def execSneImm (x : Reg) (nn : Byte) (s : State) : Host.Outcome State Fault Refusal := .next (s.skipIf (s.reg x != nn))

/-- 5XY0, SE VX, VY (R117): skip if `V[X] = V[Y]`. -/
def execSeReg (x y : Reg) (s : State) : Host.Outcome State Fault Refusal := .next (s.skipIf (s.reg x == s.reg y))

/-- 9XY0, SNE VX, VY (R118): skip if `V[X] != V[Y]`. -/
def execSneReg (x y : Reg) (s : State) : Host.Outcome State Fault Refusal := .next (s.skipIf (s.reg x != s.reg y))

/-- BNNN, JP V0, NNN (R119): `pc <- NNN + V[0]`, an exact sum. -/
def execJpV0 (nnn : Addr12) (s : State) : Host.Outcome State Fault Refusal :=
  .next (s.goto (offsetTarget nnn (s.reg 0)))

end Sys2Proof.Machine
end

