-- ==== Sys2Proof/Machine/Display.lean ====
section
/-! DEFINITION. The pixel writer: CLS and DRW (spec/43_display.md R190 to R195). -/

namespace Sys2Proof.Machine

/-- 00E0, CLS (R191): VF is not written. -/
def execCls (s : State) : Host.Outcome State Fault Refusal := .next (s.setFb clearFb).next

/-- DXYN, DRW VX, VY, N (R192): the coordinates and I are read before VF is cleared; VF starts at 0 and becomes 1 at
a collision; on a fault nothing is committed (D2, D14). -/
def execDrw (x y : Reg) (n : Nibble) (s : State) : Host.Outcome State Fault Refusal :=
  complete s ((drawRows s.pc s.mem (dataAddr s.i 0) (s.reg x).toNat (s.reg y).toNat (s.fb, false) n.toNat).map
    fun c => ((s.setFb c.1).setFlag c.2).next)

end Sys2Proof.Machine
end

