-- ==== Sys2Proof/Machine/Index.lean ====
section
/-! DEFINITION. Index register and memory instructions (spec/42_index_memory.md R170 to R176). -/

namespace Sys2Proof.Machine

/-- ANNN, LD I, NNN (R171). -/
def execLdI (nnn : Addr12) (s : State) : Host.Outcome State Fault Refusal := .next (s.setI (zext16 nnn)).next

/-- FX1E, ADD I, VX (R172): VF is not written (D10). -/
def execAddI (x : Reg) (s : State) : Host.Outcome State Fault Refusal := .next (s.setI (indexPlus s.i (s.reg x))).next

/-- FX29, LD F, VX (R173). -/
def execLdF (x : Reg) (s : State) : Host.Outcome State Fault Refusal := .next (s.setI (glyphAddr (s.reg x))).next

/-- FX33, LD B, VX (R174): three digits at I, I + 1, I + 2; I is not changed. -/
def execLdB (x : Reg) (s : State) : Host.Outcome State Fault Refusal :=
  complete s ((memWriteAll s.pc s.mem (dataAddr s.i 0) (bcdDigits (s.reg x))).map fun m => (s.setMem m).next)

/-- FX55, LD [I], VX (R175): V0 to VX to memory, I ends incremented by X + 1. -/
def execDump (x : Reg) (s : State) : Host.Outcome State Fault Refusal :=
  complete s ((dumpLoop s.pc s.v s.mem s.i (x.val + 1)).map fun r => ((s.setMem r.1).setI r.2).next)

/-- FX65, LD VX, [I] (R176): V0 to VX from memory, I ends incremented by X + 1. -/
def execLoad (x : Reg) (s : State) : Host.Outcome State Fault Refusal :=
  complete s ((loadLoop s.pc s.mem s.v s.i (x.val + 1)).map fun r => ((s.setRegs r.1).setI r.2).next)

end Sys2Proof.Machine
end

