-- ==== Sys2Proof/Machine/Input.lean ====
section
/-! DEFINITION. Keypad and timer instructions (spec/44_timers_keypad.md R210 to R217). The decrement that ends every
committed cycle is the cycle's, not theirs (`timerTick`). -/

namespace Sys2Proof.Machine

/-- FX0A under either WAIT_KEY_SELECT (R214, D11): stay at this PC until the named key is pressed; no register is
written. -/
def waitKeyOp (sel : WaitKeySelect) (x : Reg) (s : State) : Host.Outcome State Fault Refusal :=
  complete s ((keySlot s.pc (waitKeyIndex sel x (s.reg x))).map fun k => if s.key k then s.next else s.goto s.pc)

/-- EX9E, SKP VX (R211). -/
def execSkp (x : Reg) (s : State) : Host.Outcome State Fault Refusal :=
  complete s ((keySlot s.pc (s.reg x)).map fun k => s.skipIf (s.key k))

/-- EXA1, SKNP VX (R212). -/
def execSknp (x : Reg) (s : State) : Host.Outcome State Fault Refusal :=
  complete s ((keySlot s.pc (s.reg x)).map fun k => s.skipIf (!s.key k))

/-- FX07, LD VX, DT (R213): DT as the previous cycle left it. -/
def execLdVxDt (x : Reg) (s : State) : Host.Outcome State Fault Refusal := .next (s.setReg x s.dt).next

/-- FX0A, LD VX, K (R214). -/
def execLdVxK (x : Reg) (s : State) : Host.Outcome State Fault Refusal := waitKeyOp defaults.waitKeySelect x s

/-- FX15, LD DT, VX (R216). -/
def execLdDtVx (x : Reg) (s : State) : Host.Outcome State Fault Refusal := .next (s.setDt (s.reg x)).next

/-- FX18, LD ST, VX (R217). -/
def execLdStVx (x : Reg) (s : State) : Host.Outcome State Fault Refusal := .next (s.setSt (s.reg x)).next

end Sys2Proof.Machine
end

