-- ==== Sys2Proof/Machine/Step.lean ====
section
/-! DEFINITION. One step request: one cycle of spec/10_state.md R40. -/

namespace Sys2Proof.Machine

/-- One `step` request (R38, R40). The fault a cycle raised, or the one a halted core returns again, is `fault` of the
state it answers (the port `step_result`). -/
def step (s : State) : Host.Outcome State Fault Refusal := cycle exec s

/-- `s` with the word `w` of an opcode-table row of `nbits` bits as its next instruction: two bytes at PC, high byte
first, no fault recorded, and PC moved to the program base if no two bytes can be fetched at it. It stands for the
load of a program from outside the machine (log entry 13). -/
def State.withFetchWord (s : State) (nbits w : Nat) : State :=
  let word : Word := BitVec.ofNat 16 (w % 2 ^ nbits)
  let pc : Word := if s.pc.toNat + 1 < Config.memSize then s.pc else BitVec.ofNat 16 Config.progBase
  let m := Memory.write (Memory.write s.mem pc.toNat (highByte word)) (pc.toNat + 1) (lowByte word)
  { s with pc := pc, mem := m, fault := none }

end Sys2Proof.Machine
end

