-- ==== Sys2Proof/Machine/Ports.lean ====
section
/-! DEFINITION. The ports of the block, through which the host acts between cycles, and reset with a program image
(spec/10_state.md R38, R39, spec/70_reset_and_hazards.md R270, R271). -/

namespace Sys2Proof.Machine

/-- `step_result` after a step: `none` is `ok`, else the fault the cycle raised or the halted core returned (R38). -/
def stepResult (s : State) : Option Fault := s.fault

/-- `halted` (R35, R38). -/
def halted (s : State) : Bool := s.fault.isSome

/-- `beep` (R34, R38). -/
def beepOut (s : State) : Bool := s.beep

/-- `key_write(k, v)`: the host presses or releases a key between cycles (R38). -/
def keyWrite (k : Fin 16) (v : Bool) (s : State) : State := s.setKey k v

/-- A host's write of a byte to a slot: nonzero is pressed (R31, D13). -/
def keyWriteByte (k : Fin 16) (b : Byte) (s : State) : State := keyWrite k (b != 0) s

/-- `fb_read`: the 2048 cells in row-major order, cell `py * 64 + px` (R32, D15). -/
def fbRead (s : State) : List Bool := s.fb.toList.flatMap fun row => row.toList

/-- Write `n` copies of `b` at `a`, `a + 1`, … (the fill loop of R270). -/
def fillMem (b : Byte) : Memory → Nat → Nat → Memory
  | m, _, 0 => m
  | m, a, n + 1 => fillMem b (Memory.write m a b) (a + 1) n

/-- Write bytes at `a`, `a + 1`, … (the copy loops of R270). -/
def copyMem : Memory → Nat → List Byte → Memory
  | m, _, [] => m
  | m, a, b :: bs => copyMem (Memory.write m a b) (a + 1) bs

/-- Memory as construction leaves it: INIT_FILL, the glyph table burned in, the image copied to 0x200 (R270). -/
def constructMem (p : Params) (image : List Byte) : Memory :=
  copyMem (copyMem (fillMem p.initFill [] 0 Config.memSize) 0 p.font) Config.progBase image

/-- `reset(image)` under any parameters (R270, R271, D23, D30): an image over PROG_MAX only records LoadFault; any
other reconstructs the machine. The free values already drawn stay drawn (log entry 2). -/
def resetWith (p : Params) (image : List Byte) (s : State) : State :=
  if Config.progMax < image.length then { s with fault := some (.load image.length) }
  else { State.reset with mem := constructMem p image, draws := s.draws }

/-- `reset(image)` of the core (R270). -/
def reset (image : List Byte) (s : State) : State := resetWith defaults image s

/-- What a host can do to the core, each between cycles (R38, R39); `fb_read` and the output ports only read. -/
inductive HostAction where
  | step
  | keyWrite (k : Fin 16) (v : Bool)
  | reset (image : List Byte)
  deriving DecidableEq, Repr

/-- One action of the host. -/
def hostAct (a : HostAction) (s : State) : Host.Outcome State Fault Refusal :=
  match a with
  | .step => step s
  | .keyWrite k v => .next (keyWrite k v s)
  | .reset image => .next (reset image s)

/-- A host's actions in order, stopping where one has no next state. -/
def hostRun : List HostAction → State → Host.Outcome State Fault Refusal
  | [], s => .next s
  | a :: as, s =>
    match hostAct a s with
    | .next t => hostRun as t
    | .fault f => .fault f
    | .refused r => .refused r

end Sys2Proof.Machine
end

