-- ==== Sys2Proof/Machine/Variant.lean ====
section
/-! DEFINITION. The whole machine under ANY values of the open parameters of spec/00_scope.md R6, of which `exec` and
`step` are the default ones (spec/92_eei_decisions.md D4, D7, D9, D11, D16). -/

namespace Sys2Proof.Machine

/-- The execute step under the parameters `p`. FONT and INIT_FILL act at reset alone (`resetWith`). -/
def execWith (p : Params) (i : Instr) (s : State) : Host.Outcome State Fault Refusal :=
  match i with
  | .sys nnn => sysOp p.sysBehaviour nnn s
  | .cls => execCls s
  | .ret => retOp p.emptyRet s
  | .jp nnn => execJp nnn s
  | .call nnn => execCall nnn s
  | .seImm x nn => execSeImm x nn s
  | .sneImm x nn => execSneImm x nn s
  | .seReg x y => execSeReg x y s
  | .ldImm x nn => execLdImm x nn s
  | .addImm x nn => execAddImm x nn s
  | .ldReg x y => execLdReg x y s
  | .orReg x y => .next (logicOp p.logicClearsVf x (s.reg x ||| s.reg y) s)
  | .andReg x y => .next (logicOp p.logicClearsVf x (s.reg x &&& s.reg y) s)
  | .xorReg x y => .next (logicOp p.logicClearsVf x (s.reg x ^^^ s.reg y) s)
  | .addReg x y => execAddReg x y s
  | .subReg x y => execSubReg x y s
  | .shr x y => .next (shiftOp p.shiftSource shiftedOutRight shiftRight x y s)
  | .subn x y => execSubn x y s
  | .shl x y => .next (shiftOp p.shiftSource shiftedOutLeft shiftLeft x y s)
  | .sneReg x y => execSneReg x y s
  | .ldI nnn => execLdI nnn s
  | .jpV0 nnn => execJpV0 nnn s
  | .rnd x nn => execRnd x nn s
  | .drw x y n => execDrw x y n s
  | .skp x => execSkp x s
  | .sknp x => execSknp x s
  | .ldVxDt x => execLdVxDt x s
  | .ldVxK x => waitKeyOp p.waitKeySelect x s
  | .ldDtVx x => execLdDtVx x s
  | .ldStVx x => execLdStVx x s
  | .addI x => execAddI x s
  | .ldF x => execLdF x s
  | .ldB x => execLdB x s
  | .dump x => execDump x s
  | .load x => execLoad x s

/-- One cycle under the parameters `p`. -/
def stepWith (p : Params) (s : State) : Host.Outcome State Fault Refusal := cycle (execWith p) s

end Sys2Proof.Machine
end

