-- ==== Sys2Proof/Safety.lean ====
section
/-! DEFINITION. The terms claims use: the parts of the state and what leaves them unchanged, what each instruction may
write (spec/10_state.md R21, R22), the machine's invariant, safe runs (spec/70_reset_and_hazards.md R279), and the
cells a sprite covers (spec/43_display.md R190, R192). -/

namespace Sys2Proof.Machine

/-- The parts of the state a frame speaks of. -/
inductive Part where
  | regs
  | index
  | pc
  | stack
  | delay
  | sound
  | keypad
  | screen
  | memory
  | beep
  | fault
  | draws
  deriving DecidableEq, Repr

/-- `t` has this part as `s` has it; memory is compared byte by byte, at every address. -/
def Part.same (p : Part) (s t : State) : Prop :=
  match p with
  | .regs => ∀ r, t.reg r = s.reg r
  | .index => t.i = s.i
  | .pc => t.pc = s.pc
  | .stack => t.sp = s.sp ∧ t.stack = s.stack
  | .delay => t.dt = s.dt
  | .sound => t.st = s.st
  | .keypad => t.keys = s.keys
  | .screen => t.fb = s.fb
  | .memory => ∀ a, Memory.read t.mem a = Memory.read s.mem a
  | .beep => t.beep = s.beep
  | .fault => t.fault = s.fault
  | .draws => t.draws = s.draws

/-- Every part but those listed is unchanged from `s` to `t`. -/
def changesOnly (ps : List Part) (s t : State) : Prop := ∀ p, p ∉ ps → p.same s t

/-- The instruction sets register `x` to `b`, advances the PC by 2 and changes nothing else, VF included where it is
not `x`. -/
def setsOnlyReg (i : Instr) (s : State) (x : Reg) (b : Byte) : Prop :=
  ∃ t, exec i s = .next t ∧ t.reg x = b ∧ (∀ r, r ≠ x → t.reg r = s.reg r) ∧ t.pc = s.pc + 2 ∧
    changesOnly [.regs, .pc] s t

/-- The instruction sets register `x` to `b` and then VF to `flag` (so the flag is what stays where `x` is VF),
advances the PC by 2 and changes nothing else. -/
def setsRegThenFlag (i : Instr) (s : State) (x : Reg) (b : Byte) (flag : Bool) : Prop :=
  ∃ t, exec i s = .next t ∧ (x ≠ vf → t.reg x = b) ∧ t.reg vf = (if flag then 1 else 0) ∧
    (∀ r, r ≠ x → r ≠ vf → t.reg r = s.reg r) ∧ t.pc = s.pc + 2 ∧ changesOnly [.regs, .pc] s t

/-- The instruction skips (PC + 4) if `c`, else advances by 2, and changes nothing else. -/
def skipsWhen (i : Instr) (s : State) (c : Prop) : Prop :=
  ∃ t, exec i s = .next t ∧ (c → t.pc = s.pc + 4) ∧ (¬ c → t.pc = s.pc + 2) ∧ changesOnly [.pc] s t

/-- The instruction takes the fault `f`: the record and BEEP = 0 are all that changes (R236). -/
def takesFault (i : Instr) (s : State) (f : Fault) : Prop :=
  exec i s = .next { s with fault := some f, beep := false }

/-- The instruction raises MemoryFault(a), and writes nothing: no byte of memory, no register, and not I
(R174 to R176). -/
def raisesMemoryFault (i : Instr) (s : State) (a : Nat) : Prop :=
  ∃ t, exec i s = .next t ∧ (∃ kind pc, t.fault = some (.memory a kind pc)) ∧
    (∀ b, Memory.read t.mem b = Memory.read s.mem b) ∧ (∀ r, t.reg r = s.reg r) ∧ t.i = s.i

/-- The parts an instruction may write in its execute step (R22 and the instruction rules); the instructions that can
raise may also write FAULT and BEEP. -/
def partsWritten : Instr → List Part
  | .sys _ => [.pc]
  | .cls => [.screen, .pc]
  | .ret => [.stack, .pc, .fault, .beep]
  | .jp _ => [.pc]
  | .call _ => [.stack, .pc, .fault, .beep]
  | .seImm _ _ => [.pc]
  | .sneImm _ _ => [.pc]
  | .seReg _ _ => [.pc]
  | .ldImm _ _ => [.regs, .pc]
  | .addImm _ _ => [.regs, .pc]
  | .ldReg _ _ => [.regs, .pc]
  | .orReg _ _ => [.regs, .pc]
  | .andReg _ _ => [.regs, .pc]
  | .xorReg _ _ => [.regs, .pc]
  | .addReg _ _ => [.regs, .pc]
  | .subReg _ _ => [.regs, .pc]
  | .shr _ _ => [.regs, .pc]
  | .subn _ _ => [.regs, .pc]
  | .shl _ _ => [.regs, .pc]
  | .sneReg _ _ => [.pc]
  | .ldI _ => [.index, .pc]
  | .jpV0 _ => [.pc]
  | .rnd _ _ => [.regs, .pc, .draws]
  | .drw _ _ _ => [.regs, .screen, .pc, .fault, .beep]
  | .skp _ => [.pc, .fault, .beep]
  | .sknp _ => [.pc, .fault, .beep]
  | .ldVxDt _ => [.regs, .pc]
  | .ldVxK _ => [.pc, .fault, .beep]
  | .ldDtVx _ => [.delay, .pc]
  | .ldStVx _ => [.sound, .pc]
  | .addI _ => [.index, .pc]
  | .ldF _ => [.index, .pc]
  | .ldB _ => [.memory, .pc, .fault, .beep]
  | .dump _ => [.memory, .index, .pc, .fault, .beep]
  | .load _ => [.regs, .index, .pc, .fault, .beep]

/-- Whether an instruction may write register `r`: its destination X, and VF as a side effect for the six instructions
of R21; the columns V[X] and "VF side effect" of R22, with LOGIC_CLEARS_VF = false. -/
def regWritten : Instr → Reg → Bool
  | .ldImm x _, r => r == x
  | .addImm x _, r => r == x
  | .ldReg x _, r => r == x
  | .orReg x _, r => r == x
  | .andReg x _, r => r == x
  | .xorReg x _, r => r == x
  | .addReg x _, r => r == x || r == vf
  | .subReg x _, r => r == x || r == vf
  | .shr x _, r => r == x || r == vf
  | .subn x _, r => r == x || r == vf
  | .shl x _, r => r == x || r == vf
  | .rnd x _, r => r == x
  | .drw _ _ _, r => r == vf
  | .ldVxDt x, r => r == x
  | .load x, r => decide (r.val ≤ x.val)
  | .sys _, _ => false
  | .cls, _ => false
  | .ret, _ => false
  | .jp _, _ => false
  | .call _, _ => false
  | .seImm _ _, _ => false
  | .sneImm _ _, _ => false
  | .seReg _ _, _ => false
  | .sneReg _ _, _ => false
  | .ldI _, _ => false
  | .jpV0 _, _ => false
  | .skp _, _ => false
  | .sknp _, _ => false
  | .ldVxK _, _ => false
  | .ldDtVx _, _ => false
  | .ldStVx _, _ => false
  | .addI _, _ => false
  | .ldF _, _ => false
  | .ldB _, _ => false
  | .dump _, _ => false

/-! ### The invariant and safe runs -/

/-- What every cycle keeps: memory is canonical and inside its 4096 bytes; the PC is no larger than the largest value an
instruction can set, 0x10FE (R23, R119); every live stack entry is an address a CALL can stand at, at most 0xFFE
(R112). -/
abbrev Inv (s : State) : Prop :=
  Memory.wf s.mem ∧ s.pc.toNat ≤ 0x10FE ∧ ∀ k : Fin 16, k.val < s.sp.val → s.stack[k.val].toNat ≤ 0xFFE

/-- A run of `n` cycles from `s` that records no fault (R279(a)); a record, once made, stays (R237). -/
def SafeFor (n : Nat) (s : State) : Prop := ∃ t, Host.Core.run core n s = .next t ∧ t.fault = none

/-- `s` and `t` differ at most in stack entries at index SP and above (R26). -/
def sameButDeadStack (s t : State) : Prop :=
  t = { s with stack := t.stack } ∧ ∀ k : Fin 16, k.val < s.sp.val → t.stack[k.val] = s.stack[k.val]

/-- The outcome with its next state, if it has one, changed by `g`. -/
def mapNext (g : State → State) : Host.Outcome State Fault Refusal → Host.Outcome State Fault Refusal
  | .next t => .next (g t)
  | .fault f => .fault f
  | .refused r => .refused r

/-! ### Sprites (R190, R192) -/

/-- Row `r` of the sprite at `base`: the byte at `base + r`. -/
def spriteByte (m : Memory) (base r : Nat) : Byte := Memory.read m (base + r)

/-- The cell (px, py) lies under a set bit of the `n`-row sprite at `base` whose top-left pixel is (x0, y0). -/
def covers (m : Memory) (base x0 y0 n px py : Nat) : Prop :=
  ∃ r c, r < n ∧ c < 8 ∧ px = x0 + c ∧ py = y0 + r ∧ spriteBit (spriteByte m base r) c = true

/-- Row `r` raises nothing: its byte is in memory and its set bits among the columns below `cols` are on the grid. -/
abbrev rowDrawable (m : Memory) (base x0 y0 r cols : Nat) : Prop :=
  base + r ≤ 0xFFF ∧ ∀ c, c < cols → spriteBit (spriteByte m base r) c = true → x0 + c ≤ 63 ∧ y0 + r ≤ 31

/-- The first `n` rows raise nothing. -/
abbrev drawable (m : Memory) (base x0 y0 n : Nat) : Prop := ∀ r, r < n → rowDrawable m base x0 y0 r 8

end Sys2Proof.Machine
end

