-- ==== Sys2Proof/Certificates/Slice0/Obligations.lean ====
section
/-! DEFINITION. The statements for the provers, from the numbered rules of spec/. -/

open Sys2Proof Sys2Proof.Machine

/-! ### Reset, the cycle and the faults -/

/-- The table of R42 with the empty image. The framebuffer, the memory outside the glyphs and the glyph bytes are the
spec's own decisions D18 to D20 (log entries 3, 4, 5). -/
def Obligations.ResetHoldsTheResetTable : Prop :=
  (∀ r, State.reset.reg r = 0) ∧ State.reset.i = 0 ∧ State.reset.pc = 0x200 ∧ State.reset.sp = 0 ∧
  (∀ k : Fin 16, State.reset.stack[k.val] = 0) ∧ State.reset.dt = 0 ∧ State.reset.st = 0 ∧
  (∀ k, State.reset.key k = false) ∧ (∀ px py, pixel State.reset.fb px py = false) ∧
  (∀ a, a < 80 → Memory.read State.reset.mem a = defaults.font.getD a 0) ∧
  (∀ a, 80 ≤ a → Memory.read State.reset.mem a = 0) ∧
  State.reset.beep = false ∧ State.reset.fault = none

def Obligations.ResetSatisfiesInvariant : Prop := Inv State.reset

/-- The cycle R40 around `exec`: the word fetched (R63), then the instruction, then the timers and BEEP (R250, R251 with
D21); a fault taken by the instruction ends the cycle with no timer decrement (R236, D2). -/
def Obligations.StepRunsTheFetchedInstruction : Prop :=
  ∀ (s : State) (i : Instr), s.fault = none → s.pc.toNat + 1 ≤ 0xFFF →
    decodeWord (BitVec.ofNat 16 ((Memory.read s.mem s.pc.toNat).toNat * 256 +
      (Memory.read s.mem (s.pc.toNat + 1)).toNat)) = .ok i →
    ∀ t, exec i s = .next t →
      (t.fault = none → step s = .next { t with
        dt := if t.dt = 0 then 0 else t.dt - 1,
        beep := decide (t.st = 2),
        st := if t.st = 0 then 0 else t.st - 1 }) ∧
      (t.fault ≠ none → step s = .next t)

/-- R250: every committed cycle takes DT one down from what its instruction left, and never below 0. -/
def Obligations.DelayTimerCountsDownEveryCommittedCycle : Prop :=
  ∀ (s t u : State) (i : Instr), s.fault = none → s.pc.toNat + 1 ≤ 0xFFF →
    decodeWord (wordOfBytes (Memory.read s.mem s.pc.toNat) (Memory.read s.mem (s.pc.toNat + 1))) = .ok i →
    exec i s = .next u → u.fault = none → step s = .next t → t.dt.toNat = u.dt.toNat - 1

/-- R64 with D34: the first of PC, PC + 1 that is above 0xFFF. -/
def Obligations.FetchPastMemoryFaults : Prop :=
  ∀ s : State, s.fault = none → 0xFFF < s.pc.toNat + 1 →
    step s = .next { s with
      fault := some (.memory (if 0xFFF < s.pc.toNat then s.pc.toNat else s.pc.toNat + 1) .fetch s.pc),
      beep := false }

/-- R231: raised in the decode step, before any execution, carrying the raw opcode; the fault entry is that of D2. -/
def Obligations.UndecodableWordFaults : Prop :=
  ∀ (s : State) (w : Word), s.fault = none → s.pc.toNat + 1 ≤ 0xFFF →
    w = BitVec.ofNat 16 ((Memory.read s.mem s.pc.toNat).toNat * 256 + (Memory.read s.mem (s.pc.toNat + 1)).toNat) →
    (∀ i, decodeWord w ≠ .ok i) →
    step s = .next { s with fault := some (.decode w s.pc), beep := false }

/-- R237 (D36): any number of steps of a halted core changes nothing. -/
def Obligations.HaltedCoreNeverChanges : Prop :=
  ∀ (s : State) (n : Nat), s.fault ≠ none → Host.Core.run core n s = .next s

/-- The model gives every state a next state: no instruction stops it and none is refused (log entry 1). -/
def Obligations.EveryStepAnswersANextState : Prop := ∀ s : State, ∃ t, step s = .next t

/-- R236 (D2), over all instructions, the fetch and the decode. -/
def Obligations.FaultingCycleCommitsNothing : Prop :=
  ∀ s t : State, s.fault = none → step s = .next t → t.fault ≠ none →
    t = { s with fault := t.fault, beep := false }

/-- R23 (D24), R112, R119, R62: the PC within 0x10FE, live stack entries within 0xFFE, memory canonical. -/
def Obligations.StepKeepsInvariant : Prop := ∀ s t : State, Inv s → step s = .next t → Inv t

/-- R38, R39: whatever the host does between cycles. -/
def Obligations.HostActionsKeepInvariant : Prop :=
  ∀ (as : List HostAction) (s t : State), Inv s → hostRun as s = .next t → Inv t

/-- R251 (D21): BEEP is 1 after exactly those committed cycles whose decrement takes ST to 1; here for a cycle whose
instruction does not write ST, from the ST the cycle began with. -/
def Obligations.BeepExactlyWhenSoundTimerReachesOne : Prop :=
  ∀ s t : State, s.fault = none → step s = .next t → t.fault = none →
    (∀ x, decodeWord (wordOfBytes (Memory.read s.mem s.pc.toNat) (Memory.read s.mem (s.pc.toNat + 1))) ≠
      .ok (.ldStVx x)) →
    (t.beep = true ↔ s.st = 2) ∧ t.st.toNat = s.st.toNat - 1

/-- R216, R217, R251: the cycle that writes a timer also decrements it. -/
def Obligations.WrittenTimerCountsInTheSameCycle : Prop :=
  ∀ (s t : State) (x : Reg), s.fault = none → s.pc.toNat + 1 ≤ 0xFFF → step s = .next t →
    (decodeWord (wordOfBytes (Memory.read s.mem s.pc.toNat) (Memory.read s.mem (s.pc.toNat + 1))) = .ok (.ldDtVx x) →
      t.dt.toNat = (s.reg x).toNat - 1) ∧
    (decodeWord (wordOfBytes (Memory.read s.mem s.pc.toNat) (Memory.read s.mem (s.pc.toNat + 1))) = .ok (.ldStVx x) →
      t.st.toNat = (s.reg x).toNat - 1 ∧ (t.beep = true ↔ s.reg x = 2))

/-- R214, R215: while the host does not press the key FX0A names, any number of cycles leaves the core waiting there,
and only the timers and BEEP move. -/
def Obligations.KeyWaitLastsWhileHostIsSilent : Prop :=
  ∀ (s : State) (x : Reg) (k : Fin 16), s.fault = none → s.pc.toNat + 1 ≤ 0xFFF →
    decodeWord (wordOfBytes (Memory.read s.mem s.pc.toNat) (Memory.read s.mem (s.pc.toNat + 1))) = .ok (.ldVxK x) →
    (s.reg x).toNat = k.val → s.key k = false →
    ∀ n, ∃ t, Host.Core.run core n s = .next t ∧ t = { s with dt := t.dt, st := t.st, beep := t.beep } ∧
      t.dt.toNat = s.dt.toNat - n ∧ t.st.toNat = s.st.toNat - n

/-! ### Encoding -/

def Obligations.DecodeOfEncodeIsTheInstruction : Prop :=
  ∀ i : Instr, i.wellFormed = true →
    decodeWord (encode i) = .ok i ∧ decode (encodeBytes i) = .ok (i, [])

/-- R94: every word is one instruction, with the field extraction the encoder undoes, or the fault carrying the word. -/
def Obligations.EveryWordIsOneInstructionOrUnrecognized : Prop :=
  ∀ w : Word,
    (∃ i, decodeWord w = .ok i ∧ i.wellFormed = true ∧ encode i = w ∧
      ∀ j, j.wellFormed = true → encode j = w → j = i) ∨
    (decodeWord w = .error (.unrecognized w) ∧ ∀ j, j.wellFormed = true → encode j ≠ w)

/-- R91. -/
def Obligations.IllegalWordsAreThoseListed : Prop :=
  ∀ w : Word, decodeWord w = .error (.unrecognized w) ↔
    (fieldF w = 0x5 ∧ fieldN w ≠ 0) ∨ (fieldF w = 0x9 ∧ fieldN w ≠ 0) ∨
    (fieldF w = 0x8 ∧ fieldN w ∈ ([0x8, 0x9, 0xA, 0xB, 0xC, 0xD, 0xF] : List Nibble)) ∨
    (fieldF w = 0xE ∧ fieldNN w ∉ ([0x9E, 0xA1] : List Byte)) ∨
    (fieldF w = 0xF ∧ fieldNN w ∉ ([0x07, 0x0A, 0x15, 0x18, 0x1E, 0x29, 0x33, 0x55, 0x65] : List Byte))

/-- At least one word of each family 0 to F, and two illegal words. All are rows of 95_test_vectors 2.1 but 0xD125, the
example `DRW V1, V2, 5` of R95. -/
def Obligations.ListedWordsDecodeAsTheSpecSays : Prop :=
  decodeWord 0x00E1 = .ok (.sys 0x0E1) ∧ decodeWord 0x00E0 = .ok .cls ∧ decodeWord 0x00EE = .ok .ret ∧
  decodeWord 0x1ABC = .ok (.jp 0xABC) ∧ decodeWord 0x2ABC = .ok (.call 0xABC) ∧
  decodeWord 0x3A08 = .ok (.seImm 10 0x08) ∧ decodeWord 0x4A08 = .ok (.sneImm 10 0x08) ∧
  decodeWord 0x5120 = .ok (.seReg 1 2) ∧ decodeWord 0x5121 = .error (.unrecognized 0x5121) ∧
  decodeWord 0x6A05 = .ok (.ldImm 10 0x05) ∧ decodeWord 0x7A03 = .ok (.addImm 10 0x03) ∧
  decodeWord 0x8127 = .ok (.subn 1 2) ∧ decodeWord 0x812E = .ok (.shl 1 2) ∧ decodeWord 0x9AB0 = .ok (.sneReg 10 11) ∧
  decodeWord 0xA123 = .ok (.ldI 0x123) ∧ decodeWord 0xB123 = .ok (.jpV0 0x123) ∧ decodeWord 0xC1FF = .ok (.rnd 1 0xFF) ∧
  decodeWord 0xD125 = .ok (.drw 1 2 5) ∧ decodeWord 0xE0A1 = .ok (.sknp 0) ∧ decodeWord 0xF065 = .ok (.load 0) ∧
  decodeWord 0xF075 = .error (.unrecognized 0xF075)

/-! ### Control flow -/

/-- R111 with SYS_BEHAVIOUR = noop (D16, log entry 9). -/
def Obligations.SysOnlyAdvancesPc : Prop :=
  ∀ (nnn : Addr12) (s : State), ∃ t, exec (.sys nnn) s = .next t ∧ t.pc = s.pc + 2 ∧ changesOnly [.pc] s t

/-- R112 with EMPTY_RET = fault (D4, log entry 10). The stack's other entries are unchanged. -/
def Obligations.ReturnResumesPastTheCall : Prop :=
  ∀ s : State,
    (∀ h : 0 < s.sp.val, ∃ t, exec .ret s = .next t ∧ t.pc = s.stack[s.sp.val - 1] + 2 ∧
      t.sp.val = s.sp.val - 1 ∧ t.stack = s.stack ∧ changesOnly [.pc, .stack] s t) ∧
    (s.sp.val = 0 → takesFault .ret s (.stackUnderflow s.pc))

/-- R113: `pc <- NNN`, no flag and no exception. -/
def Obligations.JumpSetsPc : Prop :=
  ∀ (nnn : Addr12) (s : State), ∃ t, exec (.jp nnn) s = .next t ∧ t.pc.toNat = nnn.toNat ∧ changesOnly [.pc] s t

/-- R114 and R27: the address of the CALL itself is pushed; the fault's entry is in `MemoryAndCallFaultsAreTaken`. -/
def Obligations.CallPushesItsOwnAddress : Prop :=
  ∀ (nnn : Addr12) (s : State),
    (∀ h : s.sp.val < 16, ∃ t, exec (.call nnn) s = .next t ∧ t.pc.toNat = nnn.toNat ∧ t.sp.val = s.sp.val + 1 ∧
      t.stack[s.sp.val] = s.pc ∧ (∀ k : Fin 16, k.val ≠ s.sp.val → t.stack[k.val] = s.stack[k.val]) ∧
      changesOnly [.pc, .stack] s t) ∧
    (s.sp.val = 16 → ∃ t, exec (.call nnn) s = .next t ∧ t.fault = some (.stackOverflow s.pc))

/-- 40_control_flow: a CALL and the RET that follows it leave PC two past the CALL and the stack depth as it was. -/
def Obligations.CallThenReturnComesBack : Prop :=
  ∀ (nnn : Addr12) (s : State), s.sp.val < 16 →
    ∃ t u, exec (.call nnn) s = .next t ∧ exec .ret t = .next u ∧ u.pc = s.pc + 2 ∧ u.sp = s.sp ∧
      sameButDeadStack s { u with pc := s.pc }

/-- R115. -/
def Obligations.SkipIfEqualsImmediate : Prop :=
  ∀ (x : Reg) (nn : Byte) (s : State), skipsWhen (.seImm x nn) s (s.reg x = nn)

/-- R116, R117, R118, whose conditions the spec supplies from general knowledge. -/
def Obligations.OtherSkipsFollowTheirConditions : Prop :=
  ∀ (x y : Reg) (nn : Byte) (s : State),
    skipsWhen (.sneImm x nn) s (s.reg x ≠ nn) ∧ skipsWhen (.seReg x y) s (s.reg x = s.reg y) ∧
    skipsWhen (.sneReg x y) s (s.reg x ≠ s.reg y)

/-- R119: the exact sum. -/
def Obligations.JumpWithOffsetAddsV0 : Prop :=
  ∀ (nnn : Addr12) (s : State), ∃ t, exec (.jpV0 nnn) s = .next t ∧
    t.pc.toNat = nnn.toNat + (s.reg 0).toNat ∧ changesOnly [.pc] s t

/-- 40_control_flow: PC moves by 0 (a fault taken, a key not pressed), 2 or 4 (a skip) unless the instruction is a
jump, a call or a return. -/
def Obligations.PcMovesByTwoFourOrAbsolutely : Prop :=
  ∀ (i : Instr) (s t : State), exec i s = .next t → s.fault = none → t.fault = none →
    i ≠ .ret → (∀ n, i ≠ .jp n ∧ i ≠ .call n ∧ i ≠ .jpV0 n) →
    t.pc = s.pc + 2 ∨
    (t.pc = s.pc + 4 ∧ ∃ x y nn, i = .seImm x nn ∨ i = .sneImm x nn ∨ i = .seReg x y ∨ i = .sneReg x y ∨ i = .skp x ∨
      i = .sknp x) ∨
    (t.pc = s.pc ∧ ∃ x, i = .ldVxK x)

/-! ### ALU -/

/-- R141. -/
def Obligations.LoadImmediateSetsRegister : Prop :=
  ∀ (x : Reg) (nn : Byte) (s : State), setsOnlyReg (.ldImm x nn) s x nn

/-- R142: the sum modulo 256, VF unaffected unless it is the destination. -/
def Obligations.AddImmediateWrapsWithoutFlag : Prop :=
  ∀ (x : Reg) (nn : Byte) (s : State),
    setsOnlyReg (.addImm x nn) s x (BitVec.ofNat 8 (((s.reg x).toNat + nn.toNat) % 256))

/-- R143 to R146 with LOGIC_CLEARS_VF = false (D9, log entry 7): the result, bit by bit, and no flag. -/
def Obligations.CopyAndLogicSetOnlyTheDestination : Prop :=
  ∀ (x y : Reg) (s : State),
    setsOnlyReg (.ldReg x y) s x (s.reg y) ∧
    (∃ b, setsOnlyReg (.orReg x y) s x b ∧ ∀ k, b.getLsbD k = ((s.reg x).getLsbD k || (s.reg y).getLsbD k)) ∧
    (∃ b, setsOnlyReg (.andReg x y) s x b ∧ ∀ k, b.getLsbD k = ((s.reg x).getLsbD k && (s.reg y).getLsbD k)) ∧
    (∃ b, setsOnlyReg (.xorReg x y) s x b ∧ ∀ k, b.getLsbD k = ((s.reg x).getLsbD k ^^ (s.reg y).getLsbD k))

/-- R147 with the flag written last (D6, log entry 11). -/
def Obligations.AddSetsCarry : Prop :=
  ∀ (x y : Reg) (s : State),
    setsRegThenFlag (.addReg x y) s x (BitVec.ofNat 8 (((s.reg x).toNat + (s.reg y).toNat) % 256))
      (decide ((s.reg x).toNat + (s.reg y).toNat > 255))

/-- R148, R150 with the flag written last (D6, log entry 11). -/
def Obligations.SubtractionsSetNoBorrow : Prop :=
  ∀ (x y : Reg) (s : State),
    setsRegThenFlag (.subReg x y) s x (BitVec.ofNat 8 ((256 + (s.reg x).toNat - (s.reg y).toNat) % 256))
      (decide ((s.reg x).toNat ≥ (s.reg y).toNat)) ∧
    setsRegThenFlag (.subn x y) s x (BitVec.ofNat 8 ((256 + (s.reg y).toNat - (s.reg x).toNat) % 256))
      (decide ((s.reg y).toNat ≥ (s.reg x).toNat))

/-- R149, R151 with SHIFT_SOURCE = Vx (D7, log entry 6), and the X = F case of D8 (log entry 12). -/
def Obligations.ShiftsMoveTheBitIntoVf : Prop :=
  ∀ (x y : Reg) (s : State),
    (x ≠ vf → setsRegThenFlag (.shr x y) s x (BitVec.ofNat 8 ((s.reg x).toNat / 2)) (decide ((s.reg x).toNat % 2 = 1)) ∧
      setsRegThenFlag (.shl x y) s x (BitVec.ofNat 8 ((s.reg x).toNat * 2 % 256)) (decide ((s.reg x).toNat ≥ 128))) ∧
    setsOnlyReg (.shr vf y) s vf 0 ∧
    setsOnlyReg (.shl vf y) s vf (if (s.reg vf).toNat ≥ 128 then 2 else 0)

/-- R152: the masked draw, whatever byte is drawn, and a fresh draw next time (log entry 2). -/
def Obligations.RandomByteIsMasked : Prop :=
  ∀ (x : Reg) (nn : Byte) (s : State), ∃ t, exec (.rnd x nn) s = .next t ∧ t.reg x = s.rand8 &&& nn ∧
    t.reg x &&& ~~~nn = 0 ∧ (∀ r, r ≠ x → t.reg r = s.reg r) ∧ t.pc = s.pc + 2 ∧ t.draws = s.draws + 1 ∧
    changesOnly [.regs, .pc, .draws] s t

/-! ### Index register and memory -/

/-- R171, R172: I set, and I advanced modulo 65536 with no flag (D10, D25). -/
def Obligations.LoadAndAddIndexSetI : Prop :=
  ∀ (nnn : Addr12) (x : Reg) (s : State),
    (∃ t, exec (.ldI nnn) s = .next t ∧ t.i.toNat = nnn.toNat ∧ t.pc = s.pc + 2 ∧ changesOnly [.index, .pc] s t) ∧
    (∃ t, exec (.addI x) s = .next t ∧ t.i.toNat = (s.i.toNat + (s.reg x).toNat) % 65536 ∧ t.pc = s.pc + 2 ∧
      changesOnly [.index, .pc] s t)

/-- R173: from the whole register value. -/
def Obligations.GlyphAddressIsFiveTimesTheRegister : Prop :=
  ∀ (x : Reg) (s : State), ∃ t, exec (.ldF x) s = .next t ∧ t.i.toNat = (s.reg x).toNat * 5 ∧ t.pc = s.pc + 2 ∧
    changesOnly [.index, .pc] s t

/-- R174: the digits at I, I + 1, I + 2 and nowhere else, or MemoryFault of the first of them above 0xFFF. -/
def Obligations.BcdStoresThreeDigitsOrFaults : Prop :=
  ∀ (x : Reg) (s : State),
    (dataAddr s.i 2 ≤ 0xFFF → ∃ t, exec (.ldB x) s = .next t ∧
      (Memory.read t.mem (dataAddr s.i 0)).toNat = (s.reg x).toNat / 100 ∧
      (Memory.read t.mem (dataAddr s.i 1)).toNat = (s.reg x).toNat / 10 % 10 ∧
      (Memory.read t.mem (dataAddr s.i 2)).toNat = (s.reg x).toNat % 10 ∧
      (∀ a, a ≠ dataAddr s.i 0 → a ≠ dataAddr s.i 1 → a ≠ dataAddr s.i 2 →
        Memory.read t.mem a = Memory.read s.mem a) ∧
      t.pc = s.pc + 2 ∧ changesOnly [.memory, .pc] s t) ∧
    (0xFFF < dataAddr s.i 2 →
      raisesMemoryFault (.ldB x) s (if 0xFFF < s.i.toNat then s.i.toNat else 0x1000))

/-- R175: V0 to VX at I to I + X and nowhere else, I advanced by X + 1, or the fault of R175. -/
def Obligations.DumpStoresRegistersOrFaults : Prop :=
  ∀ (x : Reg) (s : State),
    (dataAddr s.i x.val ≤ 0xFFF → ∃ t, exec (.dump x) s = .next t ∧
      (∀ r : Reg, r.val ≤ x.val → Memory.read t.mem (dataAddr s.i r.val) = s.reg r) ∧
      (∀ a, a < dataAddr s.i 0 ∨ dataAddr s.i x.val < a → Memory.read t.mem a = Memory.read s.mem a) ∧
      t.i.toNat = s.i.toNat + x.val + 1 ∧ t.pc = s.pc + 2 ∧ changesOnly [.memory, .index, .pc] s t) ∧
    (0xFFF < dataAddr s.i x.val →
      raisesMemoryFault (.dump x) s (if 0xFFF < s.i.toNat then s.i.toNat else 0x1000))

/-- R176: V0 to VX from I to I + X, the other registers unchanged, I advanced by X + 1, or the fault of R176. -/
def Obligations.LoadFillsRegistersOrFaults : Prop :=
  ∀ (x : Reg) (s : State),
    (dataAddr s.i x.val ≤ 0xFFF → ∃ t, exec (.load x) s = .next t ∧
      (∀ r : Reg, t.reg r = if r.val ≤ x.val then Memory.read s.mem (dataAddr s.i r.val) else s.reg r) ∧
      t.i.toNat = s.i.toNat + x.val + 1 ∧ t.pc = s.pc + 2 ∧ changesOnly [.regs, .index, .pc] s t) ∧
    (0xFFF < dataAddr s.i x.val →
      raisesMemoryFault (.load x) s (if 0xFFF < s.i.toNat then s.i.toNat else 0x1000))

/-- The fault entries of FX33, FX55, FX65 and 2NNN whole: the record of R230 with D34, BEEP = 0 and nothing else (R236,
D2). -/
def Obligations.MemoryAndCallFaultsAreTaken : Prop :=
  ∀ (x : Reg) (nnn : Addr12) (s : State),
    (0xFFF < dataAddr s.i 2 →
      takesFault (.ldB x) s (.memory (if 0xFFF < s.i.toNat then s.i.toNat else 0x1000) .write s.pc)) ∧
    (0xFFF < dataAddr s.i x.val →
      takesFault (.dump x) s (.memory (if 0xFFF < s.i.toNat then s.i.toNat else 0x1000) .write s.pc) ∧
      takesFault (.load x) s (.memory (if 0xFFF < s.i.toNat then s.i.toNat else 0x1000) .read s.pc)) ∧
    (s.sp.val = 16 → takesFault (.call nnn) s (.stackOverflow s.pc))

/-- R177: a dump, any change of the registers, I set back, and a load give V0 to VX back. -/
def Obligations.DumpThenLoadRestoresRegisters : Prop :=
  ∀ (x : Reg) (s : State) (v : Regs), dataAddr s.i x.val ≤ 0xFFF →
    ∃ t u, exec (.dump x) s = .next t ∧ exec (.load x) { t with i := s.i, v := v } = .next u ∧
      (∀ r : Reg, r.val ≤ x.val → u.reg r = s.reg r) ∧
      t.i.toNat = s.i.toNat + x.val + 1 ∧ u.i.toNat = s.i.toNat + x.val + 1

/-! ### Framebuffer -/

/-- R191. -/
def Obligations.ClearScreenClearsEveryCell : Prop :=
  ∀ s : State, ∃ t, exec .cls s = .next t ∧ (∀ px py, px < 64 → py < 32 → pixel t.fb px py = false) ∧
    t.pc = s.pc + 2 ∧ changesOnly [.screen, .pc] s t

/-- R192 where nothing is raised: the covered cells are inverted and no other; VF is 1 exactly if a covered cell was 1;
I and memory are unchanged. -/
def Obligations.DrawInvertsTheCoveredCells : Prop :=
  ∀ (x y : Reg) (n : Nibble) (s : State),
    drawable s.mem s.i.toNat (s.reg x).toNat (s.reg y).toNat n.toNat →
    ∃ t, exec (.drw x y n) s = .next t ∧
      (∀ px py, px < 64 → py < 32 → covers s.mem s.i.toNat (s.reg x).toNat (s.reg y).toNat n.toNat px py →
        pixel t.fb px py = !pixel s.fb px py) ∧
      (∀ px py, px < 64 → py < 32 → ¬ covers s.mem s.i.toNat (s.reg x).toNat (s.reg y).toNat n.toNat px py →
        pixel t.fb px py = pixel s.fb px py) ∧
      (t.reg vf = 0 ∨ t.reg vf = 1) ∧
      (t.reg vf = 1 ↔ ∃ px py, covers s.mem s.i.toNat (s.reg x).toNat (s.reg y).toNat n.toNat px py ∧
        pixel s.fb px py = true) ∧
      (∀ r, r ≠ vf → t.reg r = s.reg r) ∧ t.pc = s.pc + 2 ∧ changesOnly [.regs, .screen, .pc] s t

/-- R192, R193, R239 (D14): the fault reported is the first in loop order, a row byte out of memory or a set bit off
the grid, and nothing is committed. -/
def Obligations.DrawReportsTheFirstFault : Prop :=
  ∀ (x y : Reg) (n : Nibble) (s : State),
    ¬ drawable s.mem s.i.toNat (s.reg x).toNat (s.reg y).toNat n.toNat →
    ∃ r, r < n.toNat ∧ drawable s.mem s.i.toNat (s.reg x).toNat (s.reg y).toNat r ∧
      ((0xFFF < s.i.toNat + r ∧ takesFault (.drw x y n) s (.memory (s.i.toNat + r) .read s.pc)) ∨
       (∃ c, c < 8 ∧ rowDrawable s.mem s.i.toNat (s.reg x).toNat (s.reg y).toNat r c ∧
         spriteBit (spriteByte s.mem s.i.toNat r) c = true ∧
         (63 < (s.reg x).toNat + c ∨ 31 < (s.reg y).toNat + r) ∧
         takesFault (.drw x y n) s (.framebuffer ((s.reg x).toNat + c) ((s.reg y).toNat + r) s.pc)))

/-- R195: drawing the identical sprite twice restores the framebuffer, and the second draw reports a collision exactly
when it touches a cell the first draw left set, that is a covered cell that was 0 before both (log entry 18). X and Y
are not VF, which the first draw rewrites (C8). -/
def Obligations.DrawingTwiceRestoresTheScreen : Prop :=
  ∀ (x y : Reg) (n : Nibble) (s : State), x ≠ vf → y ≠ vf →
    drawable s.mem s.i.toNat (s.reg x).toNat (s.reg y).toNat n.toNat →
    ∃ t u, exec (.drw x y n) s = .next t ∧ exec (.drw x y n) t = .next u ∧ u.fb = s.fb ∧
      (u.reg vf = 1 ↔ ∃ px py, covers s.mem s.i.toNat (s.reg x).toNat (s.reg y).toNat n.toNat px py ∧
        pixel s.fb px py = false) ∧
      (u.reg vf = 0 ∨ u.reg vf = 1)

/-- R195's parenthesis taken literally: VF = 1 after the second draw exactly when the sprite has a set bit. It is FALSE
of R192 where every covered cell was 1 before the first draw, which clears them; expected to fail (log entry 18). -/
def Obligations.SecondDrawCollidesWheneverTheSpriteHasABit : Prop :=
  ∀ (x y : Reg) (n : Nibble) (s t u : State), x ≠ vf → y ≠ vf →
    drawable s.mem s.i.toNat (s.reg x).toNat (s.reg y).toNat n.toNat →
    exec (.drw x y n) s = .next t → exec (.drw x y n) t = .next u →
    (u.reg vf = 1 ↔ ∃ px py, covers s.mem s.i.toNat (s.reg x).toNat (s.reg y).toNat n.toNat px py)

/-- R195: a draw right after CLS leaves exactly the sprite's bits, and no collision. -/
def Obligations.DrawAfterClearShowsTheSprite : Prop :=
  ∀ (x y : Reg) (n : Nibble) (s : State),
    drawable s.mem s.i.toNat (s.reg x).toNat (s.reg y).toNat n.toNat →
    ∃ t u, exec .cls s = .next t ∧ exec (.drw x y n) t = .next u ∧ u.reg vf = 0 ∧
      ∀ px py, px < 64 → py < 32 →
        (pixel u.fb px py = true ↔ covers s.mem s.i.toNat (s.reg x).toNat (s.reg y).toNat n.toNat px py)

/-! ### Keypad and timers -/

/-- R211, R212: the key is the slot V[X] names. -/
def Obligations.KeySkipsFollowTheKey : Prop :=
  ∀ (x : Reg) (k : Fin 16) (s : State), (s.reg x).toNat = k.val →
    skipsWhen (.skp x) s (s.key k = true) ∧ skipsWhen (.sknp x) s (s.key k = false)

/-- R214 with WAIT_KEY_SELECT = register_value (D11, log entry 8): no register is written. -/
def Obligations.WaitForKeyAdvancesOnlyWhenPressed : Prop :=
  ∀ (x : Reg) (k : Fin 16) (s : State), (s.reg x).toNat = k.val →
    ∃ t, exec (.ldVxK x) s = .next t ∧ (s.key k = true → t.pc = s.pc + 2) ∧ (s.key k = false → t.pc = s.pc) ∧
      changesOnly [.pc] s t

/-- R210, R238 (D12): a key index above 15 names no slot. -/
def Obligations.KeyIndexAboveFifteenFaults : Prop :=
  ∀ (x : Reg) (s : State), 15 < (s.reg x).toNat →
    takesFault (.skp x) s (.keypad (s.reg x) s.pc) ∧ takesFault (.sknp x) s (.keypad (s.reg x) s.pc) ∧
    takesFault (.ldVxK x) s (.keypad (s.reg x) s.pc)

/-- R213, R216, R217: the execute step, before the cycle's own decrement. -/
def Obligations.TimerInstructionsMoveTheTimers : Prop :=
  ∀ (x : Reg) (s : State),
    setsOnlyReg (.ldVxDt x) s x s.dt ∧
    (∃ t, exec (.ldDtVx x) s = .next t ∧ t.dt = s.reg x ∧ t.pc = s.pc + 2 ∧ changesOnly [.delay, .pc] s t) ∧
    (∃ t, exec (.ldStVx x) s = .next t ∧ t.st = s.reg x ∧ t.pc = s.pc + 2 ∧ changesOnly [.sound, .pc] s t)

/-! ### Whole-machine rules -/

/-- R22, R26, R29 to R32, R69: what each instruction may write, all 35 at once. The keypad is in no list. -/
def Obligations.InstructionsWriteOnlyTheirParts : Prop :=
  ∀ (i : Instr) (s t : State), exec i s = .next t → changesOnly (partsWritten i) s t

/-- R21, R22: VF changes only through the flag writers, or as a destination; every other register only as one. -/
def Obligations.RegistersChangeOnlyAsDestinationOrFlag : Prop :=
  ∀ (i : Instr) (s t : State) (r : Reg), exec i s = .next t → regWritten i r = false → t.reg r = s.reg r

/-- R30: no instruction reads ST; FX18 only writes it. -/
def Obligations.NoInstructionReadsTheSoundTimer : Prop :=
  ∀ (i : Instr) (s : State) (b : Byte),
    ((∀ x, i ≠ .ldStVx x) → exec i { s with st := b } = mapNext (fun t => { t with st := b }) (exec i s)) ∧
    ((∃ x, i = .ldStVx x) → exec i { s with st := b } = exec i s)

/-- R31, R32: the keypad is read by EX9E, EXA1 and FX0A alone, the framebuffer by DXYN alone. -/
def Obligations.KeypadAndScreenAreReadOnlyByTheirInstructions : Prop :=
  ∀ (i : Instr) (s : State) (keys : Vector Bool 16) (fb : Framebuffer),
    ((∀ x, i ≠ .skp x ∧ i ≠ .sknp x ∧ i ≠ .ldVxK x) →
      exec i { s with keys := keys } = mapNext (fun t => { t with keys := keys }) (exec i s)) ∧
    (i ≠ .cls → (∀ x y n, i ≠ .drw x y n) →
      exec i { s with fb := fb } = mapNext (fun t => { t with fb := fb }) (exec i s))

/-- R26, U16: no cycle can tell two states apart that differ only in stack entries at SP and above. -/
def Obligations.DeadStackEntriesAreUnobservable : Prop :=
  ∀ s s' : State, sameButDeadStack s s' →
    ∃ t t', step s = .next t ∧ step s' = .next t' ∧ sameButDeadStack t t'

/-! ### Reset with an image, and the open parameters -/

/-- R270, R271, R42: an image of at most 3584 bytes stands at 0x200, the glyphs at 0, zeros elsewhere, and everything
else is as after reset. -/
def Obligations.ResetLoadsTheImage : Prop :=
  ∀ (image : List Byte) (s : State), image.length ≤ 3584 →
    (∀ a, a < 80 → Memory.read (reset image s).mem a = defaults.font.getD a 0) ∧
    (∀ k, k < image.length → Memory.read (reset image s).mem (0x200 + k) = image.getD k 0) ∧
    (∀ a, 80 ≤ a → a < 0x200 ∨ 0x200 + image.length ≤ a → Memory.read (reset image s).mem a = 0) ∧
    reset image s = { State.reset with mem := (reset image s).mem, draws := s.draws }

/-- R271 (D30, log entry 15): an oversized image is rejected and reported, nothing is loaded, and the core is halted. -/
def Obligations.OversizedImageIsRejected : Prop :=
  ∀ (image : List Byte) (s : State), 3584 < image.length →
    reset image s = { s with fault := some (.load image.length) } ∧
    step (reset image s) = .next (reset image s)

/-- The alternatives of D7 and D9: the logic instructions clear VF last, the shifts take V[Y] once. -/
def Obligations.AlternativeAluParametersActAsDecided : Prop :=
  ∀ (p : Params) (x y : Reg) (s : State),
    (p.logicClearsVf = true →
      (∃ t, execWith p (.orReg x y) s = .next t ∧ t.reg vf = 0 ∧ (x ≠ vf → t.reg x = s.reg x ||| s.reg y)) ∧
      (∃ t, execWith p (.andReg x y) s = .next t ∧ t.reg vf = 0 ∧ (x ≠ vf → t.reg x = s.reg x &&& s.reg y)) ∧
      (∃ t, execWith p (.xorReg x y) s = .next t ∧ t.reg vf = 0 ∧ (x ≠ vf → t.reg x = s.reg x ^^^ s.reg y))) ∧
    (p.shiftSource = .vy →
      (∃ t, execWith p (.shr x y) s = .next t ∧ (t.reg x).toNat = (s.reg y).toNat / 2 ∧
        (x ≠ vf → (t.reg vf).toNat = (s.reg y).toNat % 2)) ∧
      (∃ t, execWith p (.shl x y) s = .next t ∧ (t.reg x).toNat = (s.reg y).toNat * 2 % 256 ∧
        (x ≠ vf → (t.reg vf).toNat = (s.reg y).toNat / 128)))

/-- The alternatives of D4, D11 and D16. -/
def Obligations.AlternativeControlParametersActAsDecided : Prop :=
  ∀ (p : Params) (x : Reg) (nnn : Addr12) (s : State),
    (p.sysBehaviour = .fault → execWith p (.sys nnn) s =
      .next { s with fault := some (.decode (encode (.sys nnn)) s.pc), beep := false }) ∧
    (p.emptyRet = .noop → s.sp.val = 0 → execWith p .ret s = .next { s with pc := s.pc + 2 }) ∧
    (p.waitKeySelect = .operandIndex →
      (s.key x = true → execWith p (.ldVxK x) s = .next { s with pc := s.pc + 2 }) ∧
      (s.key x = false → execWith p (.ldVxK x) s = .next s))
end

