-- ==== Sys2Proof/Laws/Memory.lean ====
section
/-! SUPPORT. The laws of memory: read after write, and that every memory operation keeps the canonical form. -/

namespace Sys2Proof.Machine

/-! ### Reading what was written -/

theorem Memory.read_erase_other {m : Memory} {a a' : Nat} (h : a' ≠ a) :
    Memory.read (Memory.erase m a) a' = Memory.read m a' := by
  induction m with
  | nil => rfl
  | cons c m ih =>
    unfold Memory.erase at ih ⊢
    by_cases hc : c.1 = a
    · simp [hc, Memory.read, Ne.symm h, ih]
    · simp [hc, Memory.read, ih]

theorem Memory.read_erase_same (m : Memory) (a : Nat) : Memory.read (Memory.erase m a) a = Memory.initial a := by
  induction m with
  | nil => rfl
  | cons c m ih =>
    unfold Memory.erase at ih ⊢
    by_cases hc : c.1 = a <;> simp [hc, Memory.read, ih]

theorem Memory.read_insert_other {m : Memory} {a a' : Nat} {b : Byte} (h : a' ≠ a) :
    Memory.read (Memory.insert m a b) a' = Memory.read m a' := by
  induction m with
  | nil => simp [Memory.insert, Memory.read, Ne.symm h]
  | cons c m ih =>
    unfold Memory.insert
    split
    · simp [Memory.read, Ne.symm h]
    · simp [Memory.read, ih]

theorem Memory.read_insert_same {m : Memory} {a : Nat} {b : Byte} (h : ∀ c ∈ m, c.1 ≠ a) :
    Memory.read (Memory.insert m a b) a = b := by
  induction m with
  | nil => simp [Memory.insert, Memory.read]
  | cons c m ih =>
    unfold Memory.insert
    split
    · simp [Memory.read]
    · simp [Memory.read, h c (by simp), ih fun d hd => h d (by simp [hd])]

theorem Memory.mem_erase {m : Memory} {a : Nat} {c : Host.Cell} : c ∈ Memory.erase m a ↔ c ∈ m ∧ c.1 ≠ a := by
  simp [Memory.erase, List.mem_filter]

/-- A read after a write to the same address gives the byte written, in every memory. -/
@[simp] theorem Memory.read_write_same (m : Memory) (a : Nat) (b : Byte) : Memory.read (Memory.write m a b) a = b := by
  unfold Memory.write
  split
  · next h => rw [Memory.read_erase_same, h]
  · exact Memory.read_insert_same fun c hc => (Memory.mem_erase.mp hc).2

/-- A write leaves every other address alone, in every memory. -/
theorem Memory.read_write_other (m : Memory) {a a' : Nat} (b : Byte) (h : a' ≠ a) :
    Memory.read (Memory.write m a b) a' = Memory.read m a' := by
  unfold Memory.write
  split
  · exact Memory.read_erase_other h
  · rw [Memory.read_insert_other h, Memory.read_erase_other h]

/-- Both laws at once. -/
theorem Memory.read_write (m : Memory) (a a' : Nat) (b : Byte) :
    Memory.read (Memory.write m a b) a' = if a' = a then b else Memory.read m a' := by
  split
  · next h => subst h; simp
  · next h => exact Memory.read_write_other m b h

/-! ### The canonical form -/

theorem Memory.wf_nil : Memory.wf [] := by simp [Memory.wf]

theorem Memory.wf_erase {m : Memory} (a : Nat) (h : Memory.wf m) : Memory.wf (Memory.erase m a) := by
  refine ⟨?_, fun c hc => h.2 c (Memory.mem_erase.mp hc).1⟩
  exact h.1.sublist ((List.filter_sublist (l := m)).map Prod.fst)

theorem Memory.mem_insert {m : Memory} {a : Nat} {b : Byte} {c : Host.Cell} :
    c ∈ Memory.insert m a b ↔ c = (a, b) ∨ c ∈ m := by
  induction m with
  | nil => simp [Memory.insert]
  | cons d m ih =>
    unfold Memory.insert
    split
    · simp
    · simp only [List.mem_cons, ih]; tauto

theorem Memory.pairwise_insert {m : Memory} {a : Nat} {b : Byte} (ha : ∀ c ∈ m, c.1 ≠ a)
    (h : (m.map Prod.fst).Pairwise (· < ·)) : ((Memory.insert m a b).map Prod.fst).Pairwise (· < ·) := by
  induction m with
  | nil => simp [Memory.insert]
  | cons d m ih =>
    rw [List.map_cons, List.pairwise_cons] at h
    unfold Memory.insert
    split
    · next hlt =>
      simp only [List.map_cons, List.pairwise_cons]
      refine ⟨fun e he => ?_, h⟩
      rcases List.mem_cons.mp he with rfl | he
      · exact hlt
      · exact lt_trans hlt (h.1 e he)
    · next hge =>
      simp only [List.map_cons, List.pairwise_cons]
      refine ⟨fun e he => ?_, ih (fun c hc => ha c (by simp [hc])) h.2⟩
      obtain ⟨c, hc, rfl⟩ := List.mem_map.mp he
      rcases Memory.mem_insert.mp hc with rfl | hc
      · exact lt_of_le_of_ne (not_lt.mp hge) (ha d (by simp))
      · exact h.1 _ (List.mem_map.mpr ⟨c, hc, rfl⟩)

/-- A write inside the memory keeps the canonical form. -/
theorem Memory.wf_write {m : Memory} {a : Nat} {b : Byte} (h : Memory.wf m) (ha : a < Config.memSize) :
    Memory.wf (Memory.write m a b) := by
  have he := Memory.wf_erase a h
  unfold Memory.write
  split
  · exact he
  · next hb =>
    refine ⟨Memory.pairwise_insert (fun c hc => (Memory.mem_erase.mp hc).2) he.1, fun c hc => ?_⟩
    rcases Memory.mem_insert.mp hc with rfl | hc
    · exact ⟨ha, hb⟩
    · exact he.2 c hc

/-! ### The raising accesses -/

/-- All a read can do (R62). -/
theorem memRead_cases (kind : AccessKind) (pc : Word) (m : Memory) (a : Nat) :
    (a ≤ 0xFFF ∧ memRead kind pc m a = .ok (Memory.read m a)) ∨
    (0xFFF < a ∧ memRead kind pc m a = .error (.memory a kind pc)) := by
  unfold memRead
  split
  · next h => exact .inr ⟨h, rfl⟩
  · next h => exact .inl ⟨not_lt.mp h, rfl⟩

@[simp] theorem memRead_ok {kind : AccessKind} {pc : Word} {m : Memory} {a : Nat} (h : a ≤ 0xFFF) :
    memRead kind pc m a = .ok (Memory.read m a) := by simp [memRead, not_lt.mpr h]

@[simp] theorem memRead_error {kind : AccessKind} {pc : Word} {m : Memory} {a : Nat} (h : 0xFFF < a) :
    memRead kind pc m a = .error (.memory a kind pc) := by simp [memRead, h]

/-- All a write can do (R62). -/
theorem memWrite_cases (pc : Word) (m : Memory) (a : Nat) (b : Byte) :
    (a ≤ 0xFFF ∧ memWrite pc m a b = .ok (Memory.write m a b)) ∨
    (0xFFF < a ∧ memWrite pc m a b = .error (.memory a .write pc)) := by
  unfold memWrite
  split
  · next h => exact .inr ⟨h, rfl⟩
  · next h => exact .inl ⟨not_lt.mp h, rfl⟩

@[simp] theorem memWrite_ok {pc : Word} {m : Memory} {a : Nat} {b : Byte} (h : a ≤ 0xFFF) :
    memWrite pc m a b = .ok (Memory.write m a b) := by simp [memWrite, not_lt.mpr h]

@[simp] theorem memWrite_error {pc : Word} {m : Memory} {a : Nat} {b : Byte} (h : 0xFFF < a) :
    memWrite pc m a b = .error (.memory a .write pc) := by simp [memWrite, h]

theorem memWrite_wf {pc : Word} {m m' : Memory} {a : Nat} {b : Byte} (h : Memory.wf m)
    (hw : memWrite pc m a b = .ok m') : Memory.wf m' := by
  rcases memWrite_cases pc m a b with ⟨ha, e⟩ | ⟨_, e⟩ <;> rw [e] at hw
  · cases hw; exact Memory.wf_write h (by unfold Config.memSize; omega)
  · cases hw

theorem memWriteAll_wf {pc : Word} {m m' : Memory} {a : Nat} {bs : List Byte} (h : Memory.wf m)
    (hw : memWriteAll pc m a bs = .ok m') : Memory.wf m' := by
  induction bs generalizing m a with
  | nil => cases hw; exact h
  | cons b bs ih =>
    unfold memWriteAll at hw
    split at hw
    · next e => exact ih (memWrite_wf h e) hw
    · cases hw

theorem dumpLoop_wf {pc : Word} {v : Regs} {m m' : Memory} {i i' : Word} {n : Nat} (h : Memory.wf m)
    (hd : dumpLoop pc v m i n = .ok (m', i')) : Memory.wf m' := by
  induction n generalizing m' i' with
  | zero => cases hd; exact h
  | succ n ih =>
    unfold dumpLoop at hd
    split at hd
    · cases hd
    · next e =>
      split at hd
      · cases hd
      · next e' => cases hd; exact memWrite_wf (ih e) e'

theorem fillMem_wf {b : Byte} {m : Memory} {a n : Nat} (h : Memory.wf m) (hn : a + n ≤ Config.memSize) :
    Memory.wf (fillMem b m a n) := by
  induction n generalizing m a with
  | zero => exact h
  | succ n ih => exact ih (Memory.wf_write h (by omega)) (by omega)

theorem copyMem_wf {m : Memory} {a : Nat} {bs : List Byte} (h : Memory.wf m) (hn : a + bs.length ≤ Config.memSize) :
    Memory.wf (copyMem m a bs) := by
  induction bs generalizing m a with
  | nil => exact h
  | cons b bs ih =>
    rw [List.length_cons] at hn
    exact ih (Memory.wf_write h (by omega)) (by omega)

/-- What the copy loop leaves: the bytes where they were copied, the rest as before. -/
theorem read_copyMem (m : Memory) (a a' : Nat) (bs : List Byte) :
    Memory.read (copyMem m a bs) a' =
      if a ≤ a' ∧ a' < a + bs.length then bs.getD (a' - a) 0 else Memory.read m a' := by
  induction bs generalizing m a with
  | nil => simp [copyMem]
  | cons b bs ih =>
    unfold copyMem
    rw [ih, Memory.read_write, List.length_cons]
    by_cases h1 : a + 1 ≤ a' ∧ a' < a + 1 + bs.length
    · have h2 : a ≤ a' ∧ a' < a + (bs.length + 1) := by omega
      have h3 : a' - a = (a' - (a + 1)) + 1 := by omega
      rw [if_pos h1, if_pos h2, h3, List.getD_cons_succ]
    · rw [if_neg h1]
      by_cases h4 : a' = a
      · subst h4; simp
      · have h2 : ¬ (a ≤ a' ∧ a' < a + (bs.length + 1)) := by omega
        rw [if_neg h4, if_neg h2]

/-- An address below every listed one reads as its reset content. -/
theorem Memory.read_below {m : Memory} {a : Nat} (h : ∀ c ∈ m, a < c.1) : Memory.read m a = Memory.initial a := by
  induction m with
  | nil => rfl
  | cons c m ih =>
    have hc := h c (by simp)
    rw [Memory.read, if_neg (by omega)]
    exact ih fun d hd => h d (by simp [hd])

/-- Two canonical memories that read alike at every address are equal data. -/
theorem Memory.ext_read {m m' : Memory} (h : Memory.wf m) (h' : Memory.wf m')
    (e : ∀ a, Memory.read m a = Memory.read m' a) : m = m' := by
  induction m generalizing m' with
  | nil =>
    cases m' with
    | nil => rfl
    | cons c m' =>
      have ec := e c.1
      rw [Memory.read, Memory.read, if_pos rfl] at ec
      exact absurd ec.symm (h'.2 c (by simp)).2
  | cons d m ih =>
    cases m' with
    | nil =>
      have ed := e d.1
      rw [Memory.read, Memory.read, if_pos rfl] at ed
      exact absurd ed (h.2 d (by simp)).2
    | cons c m' =>
      have hd := h.1
      have hc := h'.1
      rw [List.map_cons, List.pairwise_cons] at hd hc
      have hd' : ∀ x ∈ m, d.1 < x.1 := fun x hx => hd.1 _ (List.mem_map.mpr ⟨x, hx, rfl⟩)
      have hc' : ∀ x ∈ m', c.1 < x.1 := fun x hx => hc.1 _ (List.mem_map.mpr ⟨x, hx, rfl⟩)
      have below {b : Host.Cell} {l : Memory} {a : Nat} (hl : ∀ x ∈ l, b.1 < x.1) (ha : a < b.1) :
          ∀ x ∈ b :: l, a < x.1 := by
        intro x hx
        rcases List.mem_cons.mp hx with rfl | hx
        exacts [ha, ha.trans (hl x hx)]
      have hcd : c.1 = d.1 := by
        rcases Nat.lt_trichotomy c.1 d.1 with hl | hl | hl
        · have ec := e c.1
          rw [Memory.read_below (below hd' hl), Memory.read, if_pos rfl] at ec
          exact absurd ec.symm (h'.2 c (by simp)).2
        · exact hl
        · have ed := e d.1
          rw [Memory.read_below (below hc' hl), Memory.read, if_pos rfl] at ed
          exact absurd ed (h.2 d (by simp)).2
      have hb : d.2 = c.2 := by
        have ed := e d.1
        rwa [Memory.read, if_pos rfl, Memory.read, if_pos hcd] at ed
      have hh : d = c := Prod.ext hcd.symm hb
      subst hh
      congr 1
      refine ih ⟨hd.2, fun x hx => h.2 x (by simp [hx])⟩ ⟨hc.2, fun x hx => h'.2 x (by simp [hx])⟩ fun a => ?_
      by_cases ha : d.1 = a
      · subst ha
        rw [Memory.read_below hd', Memory.read_below hc']
      · have ea := e a
        rwa [Memory.read, if_neg ha, Memory.read, if_neg ha] at ea

/-- What the fill loop leaves. -/
theorem read_fillMem (b : Byte) (m : Memory) (a a' n : Nat) :
    Memory.read (fillMem b m a n) a' = if a ≤ a' ∧ a' < a + n then b else Memory.read m a' := by
  induction n generalizing m a with
  | zero => simp [fillMem]
  | succ n ih =>
    unfold fillMem
    rw [ih, Memory.read_write]
    by_cases h4 : a' = a
    · subst h4; simp
    · by_cases h1 : a + 1 ≤ a' ∧ a' < a + 1 + n
      · rw [if_pos h1, if_pos (by omega)]
      · rw [if_neg h1, if_neg h4, if_neg (by omega)]

/-- Construction leaves memory canonical (R270). -/
theorem constructMem_wf {image : List Byte} (h : image.length ≤ Config.progMax) :
    Memory.wf (constructMem defaults image) := by
  have hi : Config.progBase + image.length ≤ Config.memSize := by
    simp only [Config.progMax, Config.progBase, Config.memSize] at *
    omega
  exact copyMem_wf (copyMem_wf (fillMem_wf Memory.wf_nil (by decide)) (by decide)) hi

/-- Construction leaves the image at 0x200, the glyph table at 0 and zeros elsewhere (R270). -/
theorem read_constructMem (image : List Byte) (a : Nat) :
    Memory.read (constructMem defaults image) a =
      if 0x200 ≤ a ∧ a < 0x200 + image.length then image.getD (a - 0x200) 0
      else if a < 80 then defaults.font.getD a 0 else 0 := by
  have hl : defaults.font.length = 80 := by decide
  have hb : Config.progBase = 0x200 := rfl
  unfold constructMem
  rw [read_copyMem, read_copyMem, read_fillMem, hl, hb]
  by_cases h1 : 0x200 ≤ a ∧ a < 0x200 + image.length
  · simp [h1]
  · rw [if_neg h1, if_neg h1]
    by_cases h2 : a < 80
    · simp [h2]
    · rw [if_neg (by omega), if_neg h2]
      by_cases h3 : 0 ≤ a ∧ a < 0 + Config.memSize
      · rw [if_pos h3]
        rfl
      · rw [if_neg h3]
        simp only [Memory.read, Memory.initial]
        rw [List.getD_eq_default _ _ (by omega)]
        rfl

/-- Construction with the empty image leaves memory with nothing listed. -/
theorem constructMem_empty : constructMem defaults [] = [] := by
  refine Memory.ext_read (constructMem_wf (by decide)) Memory.wf_nil fun a => ?_
  have hl : defaults.font.length = 80 := by decide
  rw [read_constructMem, if_neg (by simp)]
  split
  · rfl
  · simp only [Memory.read, Memory.initial]
    rw [List.getD_eq_default _ _ (by omega)]
    rfl

end Sys2Proof.Machine
end

