-- ==== Sys2Proof/Laws/Ops.lean ====
section
/-! SUPPORT. For each shared operation, once, everything it can do; statements about instructions cite these instead
of unfolding the operations. -/

namespace Sys2Proof.Machine

/-! ### Taking a fault (R236) -/

@[simp] theorem complete_ok (s t : State) : complete s (.ok t) = .next t := rfl

@[simp] theorem complete_error (s : State) (f : Fault) : complete s (.error f) = .next (takeFault s f) := rfl

/-- An instruction that runs through `complete` always has a next state: its working copy, or the fault entry. -/
theorem complete_cases {s t : State} {r : Except Fault State} (h : complete s r = .next t) :
    r = .ok t ∨ ∃ f, r = .error f ∧ t = takeFault s f := by
  cases r with
  | ok u => cases h; exact .inl rfl
  | error f => cases h; exact .inr ⟨f, rfl, rfl⟩

@[simp] theorem map_ok {α β : Type} (g : α → β) (a : α) : (Except.ok a : Except Fault α).map g = .ok (g a) := rfl

@[simp] theorem map_error {α β : Type} (g : α → β) (f : Fault) :
    (Except.error f : Except Fault α).map g = .error f := rfl

/-- The same through a mapped working copy, the form of every raising meaning. -/
theorem complete_map_cases {α : Type} {s t : State} {r : Except Fault α} {g : α → State}
    (h : complete s (r.map g) = .next t) : (∃ a, r = .ok a ∧ t = g a) ∨ ∃ f, r = .error f ∧ t = takeFault s f := by
  cases r with
  | ok a => cases h; exact .inl ⟨a, rfl, rfl⟩
  | error f => cases h; exact .inr ⟨f, rfl, rfl⟩

theorem complete_isNext (s : State) (r : Except Fault State) : ∃ t, complete s r = .next t := by
  cases r with
  | ok t => exact ⟨t, rfl⟩
  | error f => exact ⟨takeFault s f, rfl⟩

/-! ### Call stack (R27, R28) -/

/-- All a push can do. -/
theorem State.push_cases (s : State) (a : Word) :
    (∃ h : s.sp.val < 16, s.push a =
      .ok { s with stack := s.stack.set s.sp.val a, sp := ⟨s.sp.val + 1, by omega⟩ }) ∨
    (s.sp.val = 16 ∧ s.push a = .error (.stackOverflow s.pc)) := by
  unfold State.push
  split
  · next h => exact .inl ⟨h, rfl⟩
  · next h => exact .inr ⟨by omega, rfl⟩

/-- All a pop can do. -/
theorem State.pop_cases (s : State) :
    (∃ h : 0 < s.sp.val, s.pop = .ok (s.stack[s.sp.val - 1], { s with sp := ⟨s.sp.val - 1, by omega⟩ })) ∨
    (s.sp.val = 0 ∧ s.pop = .error (.stackUnderflow s.pc)) := by
  unfold State.pop
  split
  · next h => exact .inr ⟨h, rfl⟩
  · next h => exact .inl ⟨by omega, rfl⟩

/-! ### Keypad (R210) -/

/-- All a key lookup can do. -/
theorem keySlot_cases (pc : Word) (k : Byte) :
    (∃ h : k.toNat < 16, keySlot pc k = .ok ⟨k.toNat, h⟩) ∨
    (15 < k.toNat ∧ keySlot pc k = .error (.keypad k pc)) := by
  unfold keySlot
  split
  · next h => exact .inl ⟨h, rfl⟩
  · next h => exact .inr ⟨by omega, rfl⟩

/-! ### Arithmetic (R140) -/

theorem addMod_eq (a b : Byte) : addMod a b = a + b := by
  apply BitVec.eq_of_toNat_eq; simp [addMod]

theorem subMod_eq (a b : Byte) : subMod a b = a - b := by
  apply BitVec.eq_of_toNat_eq
  simp only [subMod, BitVec.toNat_ofInt, BitVec.toNat_sub]
  have := a.isLt
  have := b.isLt
  omega

/-- Cutting an exact result to 8 bits is reducing it modulo 256 (R9, R140). -/
@[simp] theorem ofNat_mod_256 (n : Nat) : BitVec.ofNat 8 (n % 256) = BitVec.ofNat 8 n := by
  apply BitVec.eq_of_toNat_eq; simp

/-- The bit 8XY6 shifts out is the parity of the value (R149). -/
theorem shiftedOutRight_eq (b : Byte) : shiftedOutRight b = decide (b.toNat % 2 = 1) := by
  revert b; decide

/-- The bit 8XYE shifts out says whether doubling overflows (R151). -/
theorem shiftedOutLeft_eq (b : Byte) : shiftedOutLeft b = decide (128 ≤ b.toNat) := by
  revert b; decide

theorem zext16_toNat (nnn : Addr12) : (zext16 nnn).toNat = nnn.toNat := by
  unfold zext16; rw [BitVec.toNat_setWidth]; have := nnn.isLt; omega

theorem offsetTarget_toNat (nnn : Addr12) (b : Byte) : (offsetTarget nnn b).toNat = nnn.toNat + b.toNat := by
  unfold offsetTarget; rw [BitVec.toNat_ofNat]; have := nnn.isLt; have := b.isLt; omega

theorem glyphAddr_toNat (b : Byte) : (glyphAddr b).toNat = b.toNat * 5 := by
  unfold glyphAddr; rw [BitVec.toNat_ofNat]; have := b.isLt; omega

theorem indexPlus_toNat (i : Word) (b : Byte) : (indexPlus i b).toNat = (i.toNat + b.toNat) % 65536 := by
  unfold indexPlus; rw [BitVec.toNat_ofNat]

/-- A timer's decrement, never below 0 (R250, R251). -/
theorem countDown_toNat (t : Byte) : (countDown t).toNat = t.toNat - 1 := by
  unfold countDown
  split
  · next h => subst h; rfl
  · next h =>
    have : t.toNat ≠ 0 := fun e => h (BitVec.eq_of_toNat_eq (by simpa using e))
    have := t.isLt
    rw [BitVec.toNat_sub]; simp; omega

/-! ### Consecutive byte writes (R62, R68) -/

/-- A run of byte writes in range: those bytes there and nothing elsewhere. -/
theorem memWriteAll_ok {pc : Word} {m : Memory} {a : Nat} {bs : List Byte} (h : a + bs.length ≤ 0x1000) :
    ∃ m', memWriteAll pc m a bs = .ok m' ∧
      ∀ a', Memory.read m' a' = if a ≤ a' ∧ a' < a + bs.length then bs.getD (a' - a) 0 else Memory.read m a' := by
  suffices e : memWriteAll pc m a bs = .ok (copyMem m a bs) from ⟨_, e, fun a' => read_copyMem m a a' bs⟩
  induction bs generalizing m a with
  | nil => rfl
  | cons b bs ih =>
    rw [List.length_cons] at h
    rw [memWriteAll, memWrite_ok (by omega)]
    exact ih (by omega)

/-- A run of byte writes out of range: the fault of the first address above 0xFFF. -/
theorem memWriteAll_error {pc : Word} {m : Memory} {a : Nat} {bs : List Byte} (h0 : bs ≠ [])
    (h : 0x1000 < a + bs.length) :
    memWriteAll pc m a bs = .error (.memory (if 0xFFF < a then a else 0x1000) .write pc) := by
  induction bs generalizing m a with
  | nil => exact absurd rfl h0
  | cons b bs ih =>
    rw [List.length_cons] at h
    by_cases ha : 0xFFF < a
    · rw [memWriteAll, memWrite_error ha, if_pos ha]
    · have hne : bs ≠ [] := by rintro rfl; simp at h; omega
      rw [memWriteAll, memWrite_ok (by omega)]
      simp only
      rw [ih hne (by omega), if_neg ha]
      by_cases hb : 0xFFF < a + 1
      · rw [if_pos hb, show a + 1 = 0x1000 by omega]
      · rw [if_neg hb]

/-! ### The loops of FX55 and FX65 (R175, R176) -/

/-- The dump loop in range: the bytes of V at I, I + 1, … and nowhere else, and I advanced. -/
theorem dumpLoop_ok {pc : Word} {v : Regs} {m : Memory} {i : Word} {n : Nat} (hn : n ≤ 16)
    (h : i.toNat + n ≤ 0x1000) :
    ∃ m' i', dumpLoop pc v m i n = .ok (m', i') ∧ i'.toNat = i.toNat + n ∧
      ∀ a, Memory.read m' a =
        if i.toNat ≤ a ∧ a < i.toNat + n then v[a - i.toNat]?.getD 0 else Memory.read m a := by
  induction n with
  | zero => exact ⟨m, i, rfl, rfl, fun a => by rw [if_neg (by omega)]⟩
  | succ n ih =>
    obtain ⟨m', i', e, hi, hr⟩ := ih (by omega) (by omega)
    refine ⟨Memory.write m' i'.toNat (v[n]?.getD 0), i' + 1, ?_, ?_, fun a => ?_⟩
    · rw [dumpLoop, e]; simp [memWrite_ok (show i'.toNat ≤ 0xFFF by omega)]
    · rw [BitVec.toNat_add]; simp; omega
    · rw [Memory.read_write, hr]
      by_cases ha : a = i'.toNat
      · rw [if_pos ha, if_pos (by omega), ha, hi, Nat.add_sub_cancel_left]
      · by_cases hb : i.toNat ≤ a ∧ a < i.toNat + n
        · rw [if_neg ha, if_pos hb, if_pos (by omega)]
        · rw [if_neg ha, if_neg hb, if_neg (by omega)]

/-- The dump loop out of range: the fault of the first address above 0xFFF. -/
theorem dumpLoop_error {pc : Word} {v : Regs} {m : Memory} {i : Word} {n : Nat} (hn : n ≤ 16) (h0 : 0 < n)
    (h : 0x1000 < i.toNat + n) :
    dumpLoop pc v m i n = .error (.memory (if 0xFFF < i.toNat then i.toNat else 0x1000) .write pc) := by
  induction n with
  | zero => omega
  | succ n ih =>
    by_cases hlt : 0x1000 < i.toNat + n ∧ 0 < n
    · rw [dumpLoop, ih (by omega) hlt.2 hlt.1]
    · rcases Nat.eq_zero_or_pos n with rfl | hp
      · simp [dumpLoop, show 0xFFF < i.toNat by omega]
      · obtain ⟨m', i', e, hi, _⟩ := dumpLoop_ok (pc := pc) (v := v) (m := m) (i := i) (n := n) (by omega) (by omega)
        have hi' : i'.toNat = 0x1000 := by omega
        rw [dumpLoop, e]
        simp [hi', show ¬ 0xFFF < i.toNat by omega]

/-- The load loop in range: V0 … from memory, the other registers kept, and I advanced. -/
theorem loadLoop_ok {pc : Word} {v : Regs} {m : Memory} {i : Word} {n : Nat} (hn : n ≤ 16)
    (h : i.toNat + n ≤ 0x1000) :
    ∃ v' i', loadLoop pc m v i n = .ok (v', i') ∧ i'.toNat = i.toNat + n ∧
      ∀ k : Reg, v'[k.val] = if k.val < n then Memory.read m (i.toNat + k.val) else v[k.val] := by
  induction n with
  | zero => exact ⟨v, i, rfl, rfl, fun k => by simp⟩
  | succ n ih =>
    obtain ⟨v', i', e, hi, hr⟩ := ih (by omega) (by omega)
    refine ⟨v'.setIfInBounds n (Memory.read m i'.toNat), i' + 1, ?_, ?_, fun k => ?_⟩
    · rw [loadLoop, e]; simp [memRead_ok (show i'.toNat ≤ 0xFFF by omega)]
    · rw [BitVec.toNat_add]; simp; omega
    · rw [Vector.getElem_setIfInBounds, hr]
      by_cases hk : n = k.val
      · rw [if_pos hk, if_pos (by omega), hi, hk]
      · by_cases hb : k.val < n
        · rw [if_neg hk, if_pos hb, if_pos (by omega)]
        · rw [if_neg hk, if_neg hb, if_neg (by omega)]

/-- The load loop out of range: the fault of the first address above 0xFFF. -/
theorem loadLoop_error {pc : Word} {v : Regs} {m : Memory} {i : Word} {n : Nat} (hn : n ≤ 16) (h0 : 0 < n)
    (h : 0x1000 < i.toNat + n) :
    loadLoop pc m v i n = .error (.memory (if 0xFFF < i.toNat then i.toNat else 0x1000) .read pc) := by
  induction n with
  | zero => omega
  | succ n ih =>
    by_cases hlt : 0x1000 < i.toNat + n ∧ 0 < n
    · rw [loadLoop, ih (by omega) hlt.2 hlt.1]
    · rcases Nat.eq_zero_or_pos n with rfl | hp
      · simp [loadLoop, show 0xFFF < i.toNat by omega]
      · obtain ⟨v', i', e, hi, _⟩ := loadLoop_ok (pc := pc) (v := v) (m := m) (i := i) (n := n) (by omega) (by omega)
        have hi' : i'.toNat = 0x1000 := by omega
        rw [loadLoop, e]
        simp [hi', show ¬ 0xFFF < i.toNat by omega]

/-! ### The pixel writer (R192) -/

/-- A toggle inverts its cell and no other. -/
theorem pixel_togglePixel (fb : Framebuffer) {px py : Nat} (hx : px ≤ 63) (hy : py ≤ 31) (qx qy : Nat) :
    pixel (togglePixel fb px py) qx qy = if qx = px ∧ qy = py then !pixel fb px py else pixel fb qx qy := by
  have hp : px < 64 ∧ py < 32 := ⟨by omega, by omega⟩
  unfold togglePixel pixel
  rw [dif_pos hp]
  by_cases hq : qx < 64 ∧ qy < 32
  · rw [dif_pos hq]
    by_cases ey : qy = py
    · subst ey
      by_cases ex : qx = px
      · subst ex; simp [hp]
      · simp [ex, Ne.symm ex, hq]
    · simp [ey, Ne.symm ey, hq]
  · rw [dif_neg hq, dif_neg hq, if_neg (by omega)]

/-- All one pixel of a draw can do. -/
theorem drawPixel_cases (pc : Word) (px py : Nat) (bit : Bool) (c : Framebuffer × Bool) :
    (bit = false ∧ drawPixel pc px py bit c = .ok c) ∨
    (bit = true ∧ px ≤ 63 ∧ py ≤ 31 ∧
      drawPixel pc px py bit c = .ok (togglePixel c.1 px py, c.2 || pixel c.1 px py)) ∨
    (bit = true ∧ (63 < px ∨ 31 < py) ∧ drawPixel pc px py bit c = .error (.framebuffer px py pc)) := by
  unfold drawPixel
  cases bit with
  | false => exact .inl ⟨rfl, rfl⟩
  | true =>
    by_cases h : 63 < px ∨ 31 < py
    · exact .inr (.inr ⟨rfl, h, by simp [h]⟩)
    · exact .inr (.inl ⟨rfl, by omega, by omega, by simp [h]⟩)

/-! ### The cycle (R40) -/

/-- All a fetch can do (R63, R64). -/
theorem fetch_cases (s : State) :
    (s.pc.toNat + 1 ≤ 0xFFF ∧
      fetch s = .ok (wordOfBytes (Memory.read s.mem s.pc.toNat) (Memory.read s.mem (s.pc.toNat + 1)))) ∨
    (0xFFF < s.pc.toNat + 1 ∧
      fetch s = .error (.memory (if 0xFFF < s.pc.toNat then s.pc.toNat else s.pc.toNat + 1) .fetch s.pc)) := by
  unfold fetch
  by_cases h : s.pc.toNat + 1 ≤ 0xFFF
  · left; simp [memRead_ok (show s.pc.toNat ≤ 0xFFF by omega), h]
  · right
    by_cases h' : 0xFFF < s.pc.toNat
    · simp [h']; omega
    · simp [memRead_ok (show s.pc.toNat ≤ 0xFFF by omega), memRead_error (show 0xFFF < s.pc.toNat + 1 by omega), h']
      omega

theorem wordOfBytes_high_low (w : Word) : wordOfBytes (highByte w) (lowByte w) = w := by
  unfold wordOfBytes highByte lowByte
  apply BitVec.eq_of_toNat_eq
  have := w.isLt
  simp only [BitVec.toNat_ofNat, BitVec.extractLsb'_toNat, Nat.shiftRight_eq_div_pow]
  omega

/-- The decoder on the two bytes of a word. -/
theorem decode_bytes (w : Word) (rest : List Byte) :
    decode (highByte w :: lowByte w :: rest) = (decodeWord w).map fun i => (i, rest) := by
  have : decode (highByte w :: lowByte w :: rest) = match decodeWord (wordOfBytes (highByte w) (lowByte w)) with
      | .ok i => .ok (i, rest)
      | .error e => .error e := rfl
  rw [this, wordOfBytes_high_low]
  cases decodeWord w <;> rfl

/-- The decode step is the decoder on the fetched word. -/
theorem decodeStep_eq (pc w : Word) :
    decodeStep pc w = match decodeWord w with
      | .ok i => .ok i
      | .error _ => .error (.decode w pc) := by
  unfold decodeStep
  rw [decode_bytes]
  cases decodeWord w <;> rfl

/-- All a cycle can do, in the order of R239. -/
theorem cycle_cases (ex : Instr → State → Host.Outcome State Fault Refusal) (s : State) :
    (s.fault ≠ none ∧ cycle ex s = .next s) ∨
    (s.fault = none ∧ ∃ f, fetch s = .error f ∧ cycle ex s = .next (takeFault s f)) ∨
    (s.fault = none ∧ ∃ w f, fetch s = .ok w ∧ decodeStep s.pc w = .error f ∧
      cycle ex s = .next (takeFault s f)) ∨
    (s.fault = none ∧ ∃ w i, fetch s = .ok w ∧ decodeWord w = .ok i ∧ cycle ex s = mapNext endCycle (ex i s)) := by
  unfold cycle
  cases hf : s.fault with
  | some f => exact .inl ⟨by simp, rfl⟩
  | none =>
    refine .inr ?_
    cases hw : fetch s with
    | error f => exact .inl ⟨rfl, f, rfl, rfl⟩
    | ok w =>
      refine .inr ?_
      cases hd : decodeStep s.pc w with
      | error f => exact .inl ⟨rfl, w, f, rfl, hd, by simp [hd]⟩
      | ok i =>
        refine .inr ⟨rfl, w, i, rfl, ?_, ?_⟩
        · rw [decodeStep_eq] at hd
          cases he : decodeWord w with
          | ok j => rw [he] at hd; simpa using hd
          | error e => rw [he] at hd; cases hd
        · simp only [hd]; cases ex i s <;> rfl

/-- The end of a cycle that took no fault: the timers. -/
theorem endCycle_committed {t : State} (h : t.fault = none) : endCycle t = timerTick t := by simp [endCycle, h]

/-- The end of a cycle that took a fault: nothing. -/
theorem endCycle_faulted {t : State} (h : t.fault ≠ none) : endCycle t = t := by
  unfold endCycle; cases hf : t.fault <;> simp_all

end Sys2Proof.Machine
end

