-- ==== Sys2Proof/Laws/Draw.lean ====
section
/-! SUPPORT. What the loops of DXYN leave when nothing is raised, and what they raise otherwise
(spec/43_display.md R192 to R194). -/

namespace Sys2Proof.Machine

/-- The cell (qx, qy) lies under a set bit among the first `n` columns of a sprite row drawn at (x0, py). -/
def rowCovers (b : Byte) (x0 py n qx qy : Nat) : Prop :=
  qy = py ∧ ∃ c, c < n ∧ qx = x0 + c ∧ spriteBit b c = true

/-- The framebuffer and flag after drawing the cells `cover` on those before. -/
def Drawn (cover : Nat → Nat → Prop) (c c' : Framebuffer × Bool) : Prop :=
  (∀ qx qy, cover qx qy → pixel c'.1 qx qy = !pixel c.1 qx qy) ∧
  (∀ qx qy, ¬ cover qx qy → pixel c'.1 qx qy = pixel c.1 qx qy) ∧
  (c'.2 = true ↔ c.2 = true ∨ ∃ qx qy, cover qx qy ∧ pixel c.1 qx qy = true)

theorem drawn_nothing {cover : Nat → Nat → Prop} (c : Framebuffer × Bool) (h : ∀ qx qy, ¬ cover qx qy) :
    Drawn cover c c :=
  ⟨fun qx qy hc => absurd hc (h qx qy), fun _ _ _ => rfl, by simp [h]⟩

/-- Drawing disjoint sets of cells one after the other draws their union. -/
theorem drawn_union {p q r : Nat → Nat → Prop} {c c' c'' : Framebuffer × Bool} (hp : Drawn p c c')
    (hq : Drawn q c' c'') (hr : ∀ x y, r x y ↔ p x y ∨ q x y) (hd : ∀ x y, p x y → ¬ q x y) : Drawn r c c'' := by
  obtain ⟨p1, p2, p3⟩ := hp
  obtain ⟨q1, q2, q3⟩ := hq
  refine ⟨fun x y h => ?_, fun x y h => ?_, ?_⟩
  · rcases (hr x y).mp h with h | h
    · rw [q2 x y (hd x y h), p1 x y h]
    · rw [q1 x y h, p2 x y fun hp => hd x y hp h]
  · rw [hr, not_or] at h
    rw [q2 x y h.2, p2 x y h.1]
  · rw [q3, p3]
    constructor
    · rintro ((h | ⟨x, y, h, hx⟩) | ⟨x, y, h, hx⟩)
      · exact .inl h
      · exact .inr ⟨x, y, (hr x y).mpr (.inl h), hx⟩
      · exact .inr ⟨x, y, (hr x y).mpr (.inr h), by rw [← p2 x y fun hp => hd x y hp h]; exact hx⟩
    · rintro (h | ⟨x, y, h, hx⟩)
      · exact .inl (.inl h)
      · rcases (hr x y).mp h with h | h
        · exact .inl (.inr ⟨x, y, h, hx⟩)
        · exact .inr ⟨x, y, h, by rw [p2 x y fun hp => hd x y hp h]; exact hx⟩

/-- One set bit on the grid draws its cell. -/
theorem drawn_toggle (c : Framebuffer × Bool) {px py : Nat} (hx : px ≤ 63) (hy : py ≤ 31) :
    Drawn (fun qx qy => qx = px ∧ qy = py) c (togglePixel c.1 px py, c.2 || pixel c.1 px py) := by
  refine ⟨fun qx qy h => ?_, fun qx qy h => ?_, ?_⟩
  · rw [pixel_togglePixel _ hx hy, if_pos h, h.1, h.2]
  · rw [pixel_togglePixel _ hx hy, if_neg h]
  · simp

/-- One row of a sprite, its set bits on the grid. -/
theorem drawRow_ok {pc : Word} {b : Byte} {x0 py n : Nat} (c : Framebuffer × Bool)
    (h : ∀ k, k < n → spriteBit b k = true → x0 + k ≤ 63 ∧ py ≤ 31) :
    ∃ c', drawRow pc b x0 py c n = .ok c' ∧ Drawn (rowCovers b x0 py n) c c' := by
  induction n with
  | zero => exact ⟨c, rfl, drawn_nothing c fun qx qy h => by obtain ⟨_, k, hk, _⟩ := h; omega⟩
  | succ n ih =>
    obtain ⟨c', e, hd⟩ := ih fun k hk => h k (by omega)
    rw [drawRow, e]
    rcases drawPixel_cases pc (x0 + n) py (spriteBit b n) c' with ⟨hb, e'⟩ | ⟨hb, hx, hy, e'⟩ | ⟨hb, ho, _⟩
    · refine ⟨c', e', drawn_union hd (drawn_nothing (cover := fun _ _ => False) c' fun _ _ h => h) (fun x y => ?_)
        fun _ _ _ h => h⟩
      rw [or_false]
      constructor
      · rintro ⟨hy, k, hk, hx, hs⟩
        refine ⟨hy, k, ?_, hx, hs⟩
        rcases Nat.lt_succ_iff_lt_or_eq.mp hk with hk | rfl
        · exact hk
        · rw [hb] at hs; cases hs
      · rintro ⟨hy, k, hk, hx, hs⟩
        exact ⟨hy, k, by omega, hx, hs⟩
    · refine ⟨_, e', drawn_union hd (drawn_toggle c' hx hy) (fun x y => ?_) fun x y => ?_⟩
      · constructor
        · rintro ⟨ey, k, hk, ex, hs⟩
          rcases Nat.lt_succ_iff_lt_or_eq.mp hk with hk | rfl
          · exact .inl ⟨ey, k, hk, ex, hs⟩
          · exact .inr ⟨ex, ey⟩
        · rintro (⟨hy, k, hk, hx, hs⟩ | ⟨hx, hy⟩)
          · exact ⟨hy, k, by omega, hx, hs⟩
          · exact ⟨hy, n, by omega, hx, hb⟩
      · rintro ⟨_, k, hk, hx, _⟩ ⟨hx', _⟩
        omega
    · have := h n (by omega) hb; omega

/-- A row stops at its first set bit off the grid. -/
theorem drawRow_error {pc : Word} {b : Byte} {x0 py n k : Nat} (c : Framebuffer × Bool) (hk : k < n)
    (hb : spriteBit b k = true) (ho : 63 < x0 + k ∨ 31 < py)
    (h : ∀ j, j < k → spriteBit b j = true → x0 + j ≤ 63 ∧ py ≤ 31) :
    drawRow pc b x0 py c n = .error (.framebuffer (x0 + k) py pc) := by
  induction n with
  | zero => omega
  | succ n ih =>
    rcases Nat.lt_succ_iff_lt_or_eq.mp hk with hk | rfl
    · rw [drawRow, ih hk]
    · obtain ⟨c', e, _⟩ := drawRow_ok (pc := pc) c h
      rw [drawRow, e]
      rcases drawPixel_cases pc (x0 + k) py (spriteBit b k) c' with ⟨hb', _⟩ | ⟨_, _, _, _⟩ | ⟨_, _, e'⟩
      · rw [hb] at hb'; cases hb'
      · omega
      · exact e'

/-- The rows of a sprite that raises nothing. -/
theorem drawRows_ok {pc : Word} {m : Memory} {base x0 y0 n : Nat} (c : Framebuffer × Bool)
    (h : drawable m base x0 y0 n) :
    ∃ c', drawRows pc m base x0 y0 c n = .ok c' ∧ Drawn (covers m base x0 y0 n) c c' := by
  induction n with
  | zero => exact ⟨c, rfl, drawn_nothing c fun qx qy h => by obtain ⟨r, _, hr, _⟩ := h; omega⟩
  | succ n ih =>
    obtain ⟨c', e, hd⟩ := ih fun r hr => h r (by omega)
    obtain ⟨ha, hg⟩ := h n (by omega)
    obtain ⟨c'', e', hd'⟩ := drawRow_ok (pc := pc) (b := Memory.read m (base + n)) (py := y0 + n) c' hg
    refine ⟨c'', ?_, drawn_union hd hd' (fun x y => ?_) fun x y => ?_⟩
    · rw [drawRows, e]
      simp only [memRead_ok ha]
      exact e'
    · constructor
      · rintro ⟨r, k, hr, hk, hx, hy, hs⟩
        rcases Nat.lt_succ_iff_lt_or_eq.mp hr with hr | rfl
        · exact .inl ⟨r, k, hr, hk, hx, hy, hs⟩
        · exact .inr ⟨hy, k, hk, hx, hs⟩
      · rintro (⟨r, k, hr, hk, hx, hy, hs⟩ | ⟨hy, k, hk, hx, hs⟩)
        · exact ⟨r, k, by omega, hk, hx, hy, hs⟩
        · exact ⟨n, k, by omega, hk, hx, hy, hs⟩
    · rintro ⟨r, k, hr, hk, hx, hy, hs⟩ ⟨hy', _⟩
      omega

/-- A draw stops at the first row whose byte is out of memory (R192, R239). -/
theorem drawRows_memory_error {pc : Word} {m : Memory} {base x0 y0 n r : Nat} (c : Framebuffer × Bool) (hr : r < n)
    (h : drawable m base x0 y0 r) (ho : 0xFFF < base + r) :
    drawRows pc m base x0 y0 c n = .error (.memory (base + r) .read pc) := by
  induction n with
  | zero => omega
  | succ n ih =>
    rcases Nat.lt_succ_iff_lt_or_eq.mp hr with hr | rfl
    · rw [drawRows, ih hr]
    · obtain ⟨c', e, _⟩ := drawRows_ok (pc := pc) c h
      rw [drawRows, e]
      simp only [memRead_error ho]

/-- A draw stops at the first set bit off the grid (R192, R239). -/
theorem drawRows_pixel_error {pc : Word} {m : Memory} {base x0 y0 n r k : Nat} (c : Framebuffer × Bool) (hr : r < n)
    (h : drawable m base x0 y0 r) (hk : k < 8) (hrow : rowDrawable m base x0 y0 r k)
    (hb : spriteBit (spriteByte m base r) k = true) (ho : 63 < x0 + k ∨ 31 < y0 + r) :
    drawRows pc m base x0 y0 c n = .error (.framebuffer (x0 + k) (y0 + r) pc) := by
  induction n with
  | zero => omega
  | succ n ih =>
    rcases Nat.lt_succ_iff_lt_or_eq.mp hr with hr | rfl
    · rw [drawRows, ih hr]
    · obtain ⟨c', e, _⟩ := drawRows_ok (pc := pc) c h
      rw [drawRows, e]
      simp only [memRead_ok hrow.1]
      exact drawRow_error c' hk hb ho hrow.2

/-- Framebuffers with the same cells are equal. -/
theorem framebuffer_ext {fb fb' : Framebuffer} (h : ∀ px py, px < 64 → py < 32 → pixel fb px py = pixel fb' px py) :
    fb = fb' := by
  apply Vector.ext
  intro py hy
  apply Vector.ext
  intro px hx
  have := h px py hx hy
  simpa [pixel, hx, hy] using this

end Sys2Proof.Machine
end

