-- ==== Sys2Proof/Laws/Encoding.lean ====
section
/-! SUPPORT. The three layouts and the fields are inverse to each other (spec/30_encoding.md R80, R81). -/

namespace Sys2Proof

/-! ### Fields as numbers -/

theorem fieldF_toNat (w : Word) : (fieldF w).toNat = w.toNat / 2 ^ 12 := by
  have := w.isLt
  unfold fieldF
  rw [BitVec.extractLsb'_toNat, Nat.shiftRight_eq_div_pow]; omega

theorem fieldX_val (w : Word) : (fieldX w).val = w.toNat / 2 ^ 8 % 2 ^ 4 := by
  unfold fieldX
  show (w.extractLsb' 8 4).toNat = _
  rw [BitVec.extractLsb'_toNat, Nat.shiftRight_eq_div_pow]

theorem fieldY_val (w : Word) : (fieldY w).val = w.toNat / 2 ^ 4 % 2 ^ 4 := by
  unfold fieldY
  show (w.extractLsb' 4 4).toNat = _
  rw [BitVec.extractLsb'_toNat, Nat.shiftRight_eq_div_pow]

theorem fieldN_toNat (w : Word) : (fieldN w).toNat = w.toNat % 2 ^ 4 := by
  unfold fieldN
  rw [BitVec.extractLsb'_toNat, Nat.shiftRight_zero]

theorem fieldNN_toNat (w : Word) : (fieldNN w).toNat = w.toNat % 2 ^ 8 := by
  unfold fieldNN
  rw [BitVec.extractLsb'_toNat, Nat.shiftRight_zero]

theorem fieldNNN_toNat (w : Word) : (fieldNNN w).toNat = w.toNat % 2 ^ 12 := by
  unfold fieldNNN
  rw [BitVec.extractLsb'_toNat, Nat.shiftRight_zero]

/-! ### Layouts as numbers -/

theorem formNNN_toNat (f : Nibble) (nnn : Addr12) : (formNNN f nnn).toNat = f.toNat * 2 ^ 12 + nnn.toNat := by
  have := f.isLt
  have := nnn.isLt
  unfold formNNN
  rw [BitVec.toNat_ofNat]; omega

theorem formXNN_toNat (f : Nibble) (x : Reg) (nn : Byte) :
    (formXNN f x nn).toNat = f.toNat * 2 ^ 12 + x.val * 2 ^ 8 + nn.toNat := by
  have := f.isLt
  have := x.isLt
  have := nn.isLt
  unfold formXNN
  rw [BitVec.toNat_ofNat]; omega

theorem formXYN_toNat (f : Nibble) (x y : Reg) (n : Nibble) :
    (formXYN f x y n).toNat = f.toNat * 2 ^ 12 + x.val * 2 ^ 8 + y.val * 2 ^ 4 + n.toNat := by
  have := f.isLt
  have := x.isLt
  have := y.isLt
  have := n.isLt
  unfold formXYN
  rw [BitVec.toNat_ofNat]; omega

/-! ### A layout gives its fields back -/

@[simp] theorem fieldF_formNNN (f : Nibble) (nnn : Addr12) : fieldF (formNNN f nnn) = f := by
  apply BitVec.eq_of_toNat_eq
  have := nnn.isLt
  rw [fieldF_toNat, formNNN_toNat]; omega

@[simp] theorem fieldNNN_formNNN (f : Nibble) (nnn : Addr12) : fieldNNN (formNNN f nnn) = nnn := by
  apply BitVec.eq_of_toNat_eq
  have := nnn.isLt
  rw [fieldNNN_toNat, formNNN_toNat]; omega

@[simp] theorem fieldF_formXNN (f : Nibble) (x : Reg) (nn : Byte) : fieldF (formXNN f x nn) = f := by
  apply BitVec.eq_of_toNat_eq
  have := x.isLt
  have := nn.isLt
  rw [fieldF_toNat, formXNN_toNat]; omega

@[simp] theorem fieldX_formXNN (f : Nibble) (x : Reg) (nn : Byte) : fieldX (formXNN f x nn) = x := by
  apply Fin.ext
  have := x.isLt
  have := nn.isLt
  rw [fieldX_val, formXNN_toNat]; omega

@[simp] theorem fieldNN_formXNN (f : Nibble) (x : Reg) (nn : Byte) : fieldNN (formXNN f x nn) = nn := by
  apply BitVec.eq_of_toNat_eq
  have := nn.isLt
  rw [fieldNN_toNat, formXNN_toNat]; omega

@[simp] theorem fieldF_formXYN (f : Nibble) (x y : Reg) (n : Nibble) : fieldF (formXYN f x y n) = f := by
  apply BitVec.eq_of_toNat_eq
  have := x.isLt
  have := y.isLt
  have := n.isLt
  rw [fieldF_toNat, formXYN_toNat]; omega

@[simp] theorem fieldX_formXYN (f : Nibble) (x y : Reg) (n : Nibble) : fieldX (formXYN f x y n) = x := by
  apply Fin.ext
  have := x.isLt
  have := y.isLt
  have := n.isLt
  rw [fieldX_val, formXYN_toNat]; omega

@[simp] theorem fieldY_formXYN (f : Nibble) (x y : Reg) (n : Nibble) : fieldY (formXYN f x y n) = y := by
  apply Fin.ext
  have := y.isLt
  have := n.isLt
  rw [fieldY_val, formXYN_toNat]; omega

@[simp] theorem fieldN_formXYN (f : Nibble) (x y : Reg) (n : Nibble) : fieldN (formXYN f x y n) = n := by
  apply BitVec.eq_of_toNat_eq
  have := n.isLt
  rw [fieldN_toNat, formXYN_toNat]; omega

/-! ### The fields of a word give it back through each layout -/

theorem formNNN_fields (w : Word) : formNNN (fieldF w) (fieldNNN w) = w := by
  apply BitVec.eq_of_toNat_eq
  rw [formNNN_toNat, fieldF_toNat, fieldNNN_toNat]; omega

theorem formXNN_fields (w : Word) : formXNN (fieldF w) (fieldX w) (fieldNN w) = w := by
  apply BitVec.eq_of_toNat_eq
  rw [formXNN_toNat, fieldF_toNat, fieldX_val, fieldNN_toNat]; omega

theorem formXYN_fields (w : Word) : formXYN (fieldF w) (fieldX w) (fieldY w) (fieldN w) = w := by
  apply BitVec.eq_of_toNat_eq
  rw [formXYN_toNat, fieldF_toNat, fieldX_val, fieldY_val, fieldN_toNat]; omega

end Sys2Proof
end

