-- ==== Sys2Proof/Laws/PerInstr.lean ====
section
/-! SUPPORT. One statement for every instruction: its word matches the mask and match bits of its row of
spec/opcode_table.json (spec/30_encoding.md R85). -/

namespace Sys2Proof.Laws.TableRow

/-- The mask and match bits of the instruction's row of spec/opcode_table.json. -/
def row : Instr → Word × Word
  | .sys _ => (0xF000, 0x0000)
  | .cls => (0xFFFF, 0x00E0)
  | .ret => (0xFFFF, 0x00EE)
  | .jp _ => (0xF000, 0x1000)
  | .call _ => (0xF000, 0x2000)
  | .seImm _ _ => (0xF000, 0x3000)
  | .sneImm _ _ => (0xF000, 0x4000)
  | .seReg _ _ => (0xF00F, 0x5000)
  | .ldImm _ _ => (0xF000, 0x6000)
  | .addImm _ _ => (0xF000, 0x7000)
  | .ldReg _ _ => (0xF00F, 0x8000)
  | .orReg _ _ => (0xF00F, 0x8001)
  | .andReg _ _ => (0xF00F, 0x8002)
  | .xorReg _ _ => (0xF00F, 0x8003)
  | .addReg _ _ => (0xF00F, 0x8004)
  | .subReg _ _ => (0xF00F, 0x8005)
  | .shr _ _ => (0xF00F, 0x8006)
  | .subn _ _ => (0xF00F, 0x8007)
  | .shl _ _ => (0xF00F, 0x800E)
  | .sneReg _ _ => (0xF00F, 0x9000)
  | .ldI _ => (0xF000, 0xA000)
  | .jpV0 _ => (0xF000, 0xB000)
  | .rnd _ _ => (0xF000, 0xC000)
  | .drw _ _ _ => (0xF000, 0xD000)
  | .skp _ => (0xF0FF, 0xE09E)
  | .sknp _ => (0xF0FF, 0xE0A1)
  | .ldVxDt _ => (0xF0FF, 0xF007)
  | .ldVxK _ => (0xF0FF, 0xF00A)
  | .ldDtVx _ => (0xF0FF, 0xF015)
  | .ldStVx _ => (0xF0FF, 0xF018)
  | .addI _ => (0xF0FF, 0xF01E)
  | .ldF _ => (0xF0FF, 0xF029)
  | .ldB _ => (0xF0FF, 0xF033)
  | .dump _ => (0xF0FF, 0xF055)
  | .load _ => (0xF0FF, 0xF065)

/-- The fixed bits of the instruction's word are those of its row. -/
def Statement (i : Instr) : Prop := encode i &&& (row i).1 = (row i).2

/-! ### The three masks pick fields -/

theorem and_F (w : Word) : w &&& 0xF000#16 = (fieldF w).setWidth 16 <<< 12 := by
  unfold fieldF
  apply BitVec.eq_of_getLsbD_eq
  intro k hk
  interval_cases k <;> simp

theorem and_F_N (w : Word) : w &&& 0xF00F#16 = (fieldF w).setWidth 16 <<< 12 ||| (fieldN w).setWidth 16 := by
  unfold fieldF fieldN
  apply BitVec.eq_of_getLsbD_eq
  intro k hk
  interval_cases k <;> simp

theorem and_F_NN (w : Word) : w &&& 0xF0FF#16 = (fieldF w).setWidth 16 <<< 12 ||| (fieldNN w).setWidth 16 := by
  unfold fieldF fieldNN
  apply BitVec.eq_of_getLsbD_eq
  intro k hk
  interval_cases k <;> simp

/-! ### The layouts under the masks -/

theorem match_NNN {f : Nibble} {nnn : Addr12} {m : Word} (h : f.setWidth 16 <<< 12 = m) :
    formNNN f nnn &&& 0xF000#16 = m := by
  rw [and_F, fieldF_formNNN, h]

theorem match_XNN {f : Nibble} {x : Reg} {nn : Byte} {m : Word} (h : f.setWidth 16 <<< 12 = m) :
    formXNN f x nn &&& 0xF000#16 = m := by
  rw [and_F, fieldF_formXNN, h]

theorem match_XYN {f : Nibble} {x y : Reg} {n : Nibble} {m : Word} (h : f.setWidth 16 <<< 12 = m) :
    formXYN f x y n &&& 0xF000#16 = m := by
  rw [and_F, fieldF_formXYN, h]

theorem match_XYN_N {f : Nibble} {x y : Reg} {n : Nibble} {m : Word}
    (h : f.setWidth 16 <<< 12 ||| n.setWidth 16 = m) : formXYN f x y n &&& 0xF00F#16 = m := by
  rw [and_F_N, fieldF_formXYN, fieldN_formXYN, h]

theorem match_XNN_NN {f : Nibble} {x : Reg} {nn : Byte} {m : Word}
    (h : f.setWidth 16 <<< 12 ||| nn.setWidth 16 = m) : formXNN f x nn &&& 0xF0FF#16 = m := by
  rw [and_F_NN, fieldF_formXNN, fieldNN_formXNN, h]

/-! ### One lemma a constructor -/

theorem sys (nnn : Addr12) : Statement (.sys nnn) := match_NNN rfl
theorem cls : Statement .cls := by unfold Statement; decide
theorem ret : Statement .ret := by unfold Statement; decide
theorem jp (nnn : Addr12) : Statement (.jp nnn) := match_NNN rfl
theorem call (nnn : Addr12) : Statement (.call nnn) := match_NNN rfl
theorem seImm (x : Reg) (nn : Byte) : Statement (.seImm x nn) := match_XNN rfl
theorem sneImm (x : Reg) (nn : Byte) : Statement (.sneImm x nn) := match_XNN rfl
theorem seReg (x : Reg) (y : Reg) : Statement (.seReg x y) := match_XYN_N rfl
theorem ldImm (x : Reg) (nn : Byte) : Statement (.ldImm x nn) := match_XNN rfl
theorem addImm (x : Reg) (nn : Byte) : Statement (.addImm x nn) := match_XNN rfl
theorem ldReg (x : Reg) (y : Reg) : Statement (.ldReg x y) := match_XYN_N rfl
theorem orReg (x : Reg) (y : Reg) : Statement (.orReg x y) := match_XYN_N rfl
theorem andReg (x : Reg) (y : Reg) : Statement (.andReg x y) := match_XYN_N rfl
theorem xorReg (x : Reg) (y : Reg) : Statement (.xorReg x y) := match_XYN_N rfl
theorem addReg (x : Reg) (y : Reg) : Statement (.addReg x y) := match_XYN_N rfl
theorem subReg (x : Reg) (y : Reg) : Statement (.subReg x y) := match_XYN_N rfl
theorem shr (x : Reg) (y : Reg) : Statement (.shr x y) := match_XYN_N rfl
theorem subn (x : Reg) (y : Reg) : Statement (.subn x y) := match_XYN_N rfl
theorem shl (x : Reg) (y : Reg) : Statement (.shl x y) := match_XYN_N rfl
theorem sneReg (x : Reg) (y : Reg) : Statement (.sneReg x y) := match_XYN_N rfl
theorem ldI (nnn : Addr12) : Statement (.ldI nnn) := match_NNN rfl
theorem jpV0 (nnn : Addr12) : Statement (.jpV0 nnn) := match_NNN rfl
theorem rnd (x : Reg) (nn : Byte) : Statement (.rnd x nn) := match_XNN rfl
theorem drw (x : Reg) (y : Reg) (n : Nibble) : Statement (.drw x y n) := match_XYN rfl
theorem skp (x : Reg) : Statement (.skp x) := match_XNN_NN rfl
theorem sknp (x : Reg) : Statement (.sknp x) := match_XNN_NN rfl
theorem ldVxDt (x : Reg) : Statement (.ldVxDt x) := match_XNN_NN rfl
theorem ldVxK (x : Reg) : Statement (.ldVxK x) := match_XNN_NN rfl
theorem ldDtVx (x : Reg) : Statement (.ldDtVx x) := match_XNN_NN rfl
theorem ldStVx (x : Reg) : Statement (.ldStVx x) := match_XNN_NN rfl
theorem addI (x : Reg) : Statement (.addI x) := match_XNN_NN rfl
theorem ldF (x : Reg) : Statement (.ldF x) := match_XNN_NN rfl
theorem ldB (x : Reg) : Statement (.ldB x) := match_XNN_NN rfl
theorem dump (x : Reg) : Statement (.dump x) := match_XNN_NN rfl
theorem load (x : Reg) : Statement (.load x) := match_XNN_NN rfl

end Sys2Proof.Laws.TableRow
end

