-- ==== Sys2Proof/Laws/Step.lean ====
section
/-! SUPPORT. What an instruction and a step can do to the fault record, said once (spec/10_state.md R40,
spec/60_exceptions.md R236, R237). -/

namespace Sys2Proof.Machine

/-- An instruction either leaves the fault record as it was or takes a fault from the state it started in. -/
theorem exec_cases {i : Instr} {s t : State} (h : exec i s = .next t) :
    t.fault = s.fault ∨ ∃ f, t = takeFault s f := by
  cases i <;> simp only [exec] at h
  case ret =>
    unfold execRet retOp at h
    rcases s.pop_cases with ⟨_, e⟩ | ⟨_, e⟩ <;> rw [e] at h <;> cases h
    · exact .inl rfl
    · exact .inr ⟨_, rfl⟩
  case call =>
    unfold execCall at h
    rcases s.push_cases s.pc with ⟨_, e⟩ | ⟨_, e⟩ <;> rw [e] at h <;> cases h
    · exact .inl rfl
    · exact .inr ⟨_, rfl⟩
  case ldVxK =>
    unfold execLdVxK waitKeyOp at h
    rcases complete_map_cases h with ⟨k, _, rfl⟩ | ⟨f, _, rfl⟩
    · left; split <;> rfl
    · exact .inr ⟨_, rfl⟩
  case drw =>
    rcases complete_map_cases h with ⟨_, _, rfl⟩ | ⟨_, _, rfl⟩
    exacts [.inl rfl, .inr ⟨_, rfl⟩]
  case skp =>
    rcases complete_map_cases h with ⟨_, _, rfl⟩ | ⟨_, _, rfl⟩
    exacts [.inl rfl, .inr ⟨_, rfl⟩]
  case sknp =>
    rcases complete_map_cases h with ⟨_, _, rfl⟩ | ⟨_, _, rfl⟩
    exacts [.inl rfl, .inr ⟨_, rfl⟩]
  case ldB =>
    rcases complete_map_cases h with ⟨_, _, rfl⟩ | ⟨_, _, rfl⟩
    exacts [.inl rfl, .inr ⟨_, rfl⟩]
  case dump =>
    rcases complete_map_cases h with ⟨_, _, rfl⟩ | ⟨_, _, rfl⟩
    exacts [.inl rfl, .inr ⟨_, rfl⟩]
  case load =>
    rcases complete_map_cases h with ⟨_, _, rfl⟩ | ⟨_, _, rfl⟩
    exacts [.inl rfl, .inr ⟨_, rfl⟩]
  all_goals (cases h; exact .inl rfl)

/-- All a step can do: nothing, on a halted core; take a fault; or commit the fetched instruction and run the timers. -/
theorem step_cases {s t : State} (h : step s = .next t) :
    (s.fault ≠ none ∧ t = s) ∨
    (s.fault = none ∧ ∃ f, t = takeFault s f) ∨
    (s.fault = none ∧ s.pc.toNat + 1 ≤ 0xFFF ∧ ∃ i u,
      decodeWord (wordOfBytes (Memory.read s.mem s.pc.toNat) (Memory.read s.mem (s.pc.toNat + 1))) = .ok i ∧
      exec i s = .next u ∧ u.fault = none ∧ t = timerTick u) := by
  unfold step at h
  rcases cycle_cases exec s with ⟨h1, e⟩ | ⟨h1, f, _, e⟩ | ⟨h1, w, f, _, _, e⟩ | ⟨h1, w, i, hw, hd, e⟩ <;> rw [e] at h
  · cases h; exact .inl ⟨h1, rfl⟩
  · cases h; exact .inr (.inl ⟨h1, f, rfl⟩)
  · cases h; exact .inr (.inl ⟨h1, f, rfl⟩)
  · rcases fetch_cases s with ⟨hp, e'⟩ | ⟨_, e'⟩ <;> rw [e'] at hw <;> cases hw
    cases hx : exec i s with
    | next u =>
      rw [hx] at h; cases h
      rcases exec_cases hx with hf | ⟨f, rfl⟩
      · rw [h1] at hf
        exact .inr (.inr ⟨h1, hp, i, u, hd, hx, hf, endCycle_committed hf⟩)
      · exact .inr (.inl ⟨h1, f, endCycle_faulted (by simp)⟩)
    | fault => rw [hx] at h; cases h
    | refused => rw [hx] at h; cases h

/-! ### Running the fetched instruction, and runs -/

/-- A cycle whose fetched word decodes to `i` is `exec i` and the end of the cycle. -/
theorem step_of_exec {s t : State} {i : Instr} (h1 : s.fault = none) (h2 : s.pc.toNat + 1 ≤ 0xFFF)
    (h3 : decodeWord (wordOfBytes (Memory.read s.mem s.pc.toNat) (Memory.read s.mem (s.pc.toNat + 1))) = .ok i)
    (h4 : exec i s = .next t) : step s = .next (endCycle t) := by
  have hf : fetch s = .ok (wordOfBytes (Memory.read s.mem s.pc.toNat) (Memory.read s.mem (s.pc.toNat + 1))) := by
    unfold fetch
    rw [memRead_ok (by omega), memRead_ok (by omega)]
  simp only [step, cycle, h1, hf, decodeStep_eq, h3, h4]

/-- On any machine, a run of `n + 1` steps is one step and a run of `n`. -/
theorem run_next {M : Host.Core} {s t : M.State} (n : Nat) (h : M.step s = .next t) : M.run (n + 1) s = M.run n t := by
  simp only [Host.Core.run, h]

/-- A run of `n + 1` cycles of the core is one `step` and a run of `n`. -/
theorem run_of_step {s t : State} (n : Nat) (h : step s = .next t) :
    Host.Core.run core (n + 1) s = Host.Core.run core n t :=
  run_next (M := core) n h

/-! ### The default machine, and reset with the empty image -/

/-- `exec` is the execute step under the default parameters. -/
theorem execWith_defaults (i : Instr) (s : State) : execWith defaults i s = exec i s := by cases i <;> rfl

/-- `step` is the step under the default parameters. -/
theorem stepWith_defaults (s : State) : stepWith defaults s = step s := by
  have h : execWith defaults = exec := by funext i t; exact execWith_defaults i t
  simp only [stepWith, step, h]

/-- `reset` with the empty image is `State.reset`, but for the free values already drawn (R270, log entry 2). -/
theorem reset_empty (s : State) : reset [] s = { State.reset with draws := s.draws } := by
  have h : ¬ Config.progMax < ([] : List Byte).length := by decide
  simp only [reset, resetWith, h, if_false, constructMem_empty]
  rfl

end Sys2Proof.Machine
end

