-- ==== Sys2Proof/Machine/Asm.lean ====
section
/-! DEFINITION. The assembly text of an instruction (spec/30_encoding.md R95, D31). It has no effect on the machine:
`encode` places the operands (R81, R85). -/

namespace Sys2Proof

/-- The mnemonic of an instruction's text: two rows of different mnemonics in spec/opcode_table.json can share it, as
`LD VX, NN` and `LD I, NNN` do (R85). -/
def Instr.mnemonic : Instr → String
  | .sys _ => "SYS"
  | .cls => "CLS"
  | .ret => "RET"
  | .jp _ => "JP"
  | .call _ => "CALL"
  | .seImm _ _ => "SE"
  | .sneImm _ _ => "SNE"
  | .seReg _ _ => "SE"
  | .ldImm _ _ => "LD"
  | .addImm _ _ => "ADD"
  | .ldReg _ _ => "LD"
  | .orReg _ _ => "OR"
  | .andReg _ _ => "AND"
  | .xorReg _ _ => "XOR"
  | .addReg _ _ => "ADD"
  | .subReg _ _ => "SUB"
  | .shr _ _ => "SHR"
  | .subn _ _ => "SUBN"
  | .shl _ _ => "SHL"
  | .sneReg _ _ => "SNE"
  | .ldI _ => "LD"
  | .jpV0 _ => "JP"
  | .rnd _ _ => "RND"
  | .drw _ _ _ => "DRW"
  | .skp _ => "SKP"
  | .sknp _ => "SKNP"
  | .ldVxDt _ => "LD"
  | .ldVxK _ => "LD"
  | .ldDtVx _ => "LD"
  | .ldStVx _ => "LD"
  | .addI _ => "ADD"
  | .ldF _ => "LD"
  | .ldB _ => "LD"
  | .dump _ => "LD"
  | .load _ => "LD"

/-- One hexadecimal digit. -/
def hexDigit (d : Nat) : String :=
  ["0", "1", "2", "3", "4", "5", "6", "7", "8", "9", "A", "B", "C", "D", "E", "F"].getD d ""

/-- `V0` to `VF`. -/
def regText (x : Reg) : String := "V" ++ hexDigit x.val

/-- An 8-bit immediate, `0xNN`. -/
def byteText (b : Byte) : String := "0x" ++ hexDigit (b.toNat / 16) ++ hexDigit (b.toNat % 16)

/-- A 12-bit immediate, `0xNNN`. -/
def addrText (a : Addr12) : String :=
  "0x" ++ hexDigit (a.toNat / 256) ++ hexDigit (a.toNat / 16 % 16) ++ hexDigit (a.toNat % 16)

/-- The row count of DRW, a plain decimal number as in R95's `DRW V1, V2, 5` (DESIGN CHOICE above 9, log entry 21). -/
def rowsText (n : Nibble) : String := (if n.toNat < 10 then "" else "1") ++ hexDigit (n.toNat % 10)

/-- The operands of an instruction's text, in order (R85, R95). The optional `, VY` of the shifts is written when
SHIFT_SOURCE is Vy. -/
def Instr.operands (source : ShiftSource) : Instr → List String
  | .sys nnn => [addrText nnn]
  | .cls => []
  | .ret => []
  | .jp nnn => [addrText nnn]
  | .call nnn => [addrText nnn]
  | .seImm x nn => [regText x, byteText nn]
  | .sneImm x nn => [regText x, byteText nn]
  | .seReg x y => [regText x, regText y]
  | .ldImm x nn => [regText x, byteText nn]
  | .addImm x nn => [regText x, byteText nn]
  | .ldReg x y => [regText x, regText y]
  | .orReg x y => [regText x, regText y]
  | .andReg x y => [regText x, regText y]
  | .xorReg x y => [regText x, regText y]
  | .addReg x y => [regText x, regText y]
  | .subReg x y => [regText x, regText y]
  | .shr x y => if source = .vy then [regText x, regText y] else [regText x]
  | .subn x y => [regText x, regText y]
  | .shl x y => if source = .vy then [regText x, regText y] else [regText x]
  | .sneReg x y => [regText x, regText y]
  | .ldI nnn => ["I", addrText nnn]
  | .jpV0 nnn => ["V0", addrText nnn]
  | .rnd x nn => [regText x, byteText nn]
  | .drw x y n => [regText x, regText y, rowsText n]
  | .skp x => [regText x]
  | .sknp x => [regText x]
  | .ldVxDt x => [regText x, "DT"]
  | .ldVxK x => [regText x, "K"]
  | .ldDtVx x => ["DT", regText x]
  | .ldStVx x => ["ST", regText x]
  | .addI x => ["I", regText x]
  | .ldF x => ["F", regText x]
  | .ldB x => ["B", regText x]
  | .dump x => ["[I]", regText x]
  | .load x => [regText x, "[I]"]

/-- Operands separated by a comma and a space. -/
def joinOperands : List String → String
  | [] => ""
  | [o] => o
  | o :: os => o ++ ", " ++ joinOperands os

/-- The text of an instruction: its mnemonic, a space and its operands (R95). -/
def Instr.text (source : ShiftSource) (i : Instr) : String :=
  match i.operands source with
  | [] => i.mnemonic
  | os => i.mnemonic ++ " " ++ joinOperands os

end Sys2Proof
end

