-- ==== Sys2Proof/Tests/Slice0.lean ====
section
/-! SUPPORT. The model's own tests: ill-formed terms, decoding words written bit by bit from the encodings of
spec/30_encoding.md R85, one step on the vectors of spec/95_test_vectors.md Part 2, and a witness for the hypotheses of
every statement. -/

namespace Sys2Proof.Tests

-- One theorem at a time: each thread of the checker takes a large stack.
set_option Elab.async false

open Sys2Proof Sys2Proof.Machine

/-! ### Well-formedness: the one check (R86) -/

theorem test_sys_cls_word_is_ill_formed : (Instr.sys 0x0E0).wellFormed = false := by decide
theorem test_sys_ret_word_is_ill_formed : (Instr.sys 0x0EE).wellFormed = false := by decide
theorem test_sys_other_words_are_well_formed :
    (Instr.sys 0x0E1).wellFormed = true ∧ (Instr.sys 0xFFF).wellFormed = true := by decide

/-! ### Decoding: one word for every row of R85, written bit by bit -/

theorem test_decode_sys : decodeWord 0b0000101001011100 = .ok (.sys 0xA5C) := by decide
theorem test_decode_cls : decodeWord 0b0000000011100000 = .ok (.cls) := by decide
theorem test_decode_ret : decodeWord 0b0000000011101110 = .ok (.ret) := by decide
theorem test_decode_jp : decodeWord 0b0001101001011100 = .ok (.jp 0xA5C) := by decide
theorem test_decode_call : decodeWord 0b0010101001011100 = .ok (.call 0xA5C) := by decide
theorem test_decode_seImm : decodeWord 0b0011101100111101 = .ok (.seImm 0xB 0x3D) := by decide
theorem test_decode_sneImm : decodeWord 0b0100101100111101 = .ok (.sneImm 0xB 0x3D) := by decide
theorem test_decode_seReg : decodeWord 0b0101101101100000 = .ok (.seReg 0xB 0x6) := by decide
theorem test_decode_ldImm : decodeWord 0b0110101100111101 = .ok (.ldImm 0xB 0x3D) := by decide
theorem test_decode_addImm : decodeWord 0b0111101100111101 = .ok (.addImm 0xB 0x3D) := by decide
theorem test_decode_ldReg : decodeWord 0b1000101101100000 = .ok (.ldReg 0xB 0x6) := by decide
theorem test_decode_orReg : decodeWord 0b1000101101100001 = .ok (.orReg 0xB 0x6) := by decide
theorem test_decode_andReg : decodeWord 0b1000101101100010 = .ok (.andReg 0xB 0x6) := by decide
theorem test_decode_xorReg : decodeWord 0b1000101101100011 = .ok (.xorReg 0xB 0x6) := by decide
theorem test_decode_addReg : decodeWord 0b1000101101100100 = .ok (.addReg 0xB 0x6) := by decide
theorem test_decode_subReg : decodeWord 0b1000101101100101 = .ok (.subReg 0xB 0x6) := by decide
theorem test_decode_shr : decodeWord 0b1000101101100110 = .ok (.shr 0xB 0x6) := by decide
theorem test_decode_subn : decodeWord 0b1000101101100111 = .ok (.subn 0xB 0x6) := by decide
theorem test_decode_shl : decodeWord 0b1000101101101110 = .ok (.shl 0xB 0x6) := by decide
theorem test_decode_sneReg : decodeWord 0b1001101101100000 = .ok (.sneReg 0xB 0x6) := by decide
theorem test_decode_ldI : decodeWord 0b1010101001011100 = .ok (.ldI 0xA5C) := by decide
theorem test_decode_jpV0 : decodeWord 0b1011101001011100 = .ok (.jpV0 0xA5C) := by decide
theorem test_decode_rnd : decodeWord 0b1100101100111101 = .ok (.rnd 0xB 0x3D) := by decide
theorem test_decode_drw : decodeWord 0b1101101101101001 = .ok (.drw 0xB 0x6 0x9) := by decide
theorem test_decode_skp : decodeWord 0b1110101110011110 = .ok (.skp 0xB) := by decide
theorem test_decode_sknp : decodeWord 0b1110101110100001 = .ok (.sknp 0xB) := by decide
theorem test_decode_ldVxDt : decodeWord 0b1111101100000111 = .ok (.ldVxDt 0xB) := by decide
theorem test_decode_ldVxK : decodeWord 0b1111101100001010 = .ok (.ldVxK 0xB) := by decide
theorem test_decode_ldDtVx : decodeWord 0b1111101100010101 = .ok (.ldDtVx 0xB) := by decide
theorem test_decode_ldStVx : decodeWord 0b1111101100011000 = .ok (.ldStVx 0xB) := by decide
theorem test_decode_addI : decodeWord 0b1111101100011110 = .ok (.addI 0xB) := by decide
theorem test_decode_ldF : decodeWord 0b1111101100101001 = .ok (.ldF 0xB) := by decide
theorem test_decode_ldB : decodeWord 0b1111101100110011 = .ok (.ldB 0xB) := by decide
theorem test_decode_dump : decodeWord 0b1111101101010101 = .ok (.dump 0xB) := by decide
theorem test_decode_load : decodeWord 0b1111101101100101 = .ok (.load 0xB) := by decide

/-! ### Decoding: the boundaries of 2.1 and the illegal words -/

theorem test_family0_neighbours :
    decodeWord 0x0000 = .ok (.sys 0x000) ∧ decodeWord 0x00E1 = .ok (.sys 0x0E1) ∧
    decodeWord 0x00FF = .ok (.sys 0x0FF) ∧ decodeWord 0x0FFF = .ok (.sys 0xFFF) := by decide

theorem test_illegal_family5 : decodeWord 0x5121 = .error (.unrecognized 0x5121) := by decide
theorem test_illegal_family8_low : decodeWord 0x8128 = .error (.unrecognized 0x8128) := by decide
theorem test_illegal_family8_high : decodeWord 0x812F = .error (.unrecognized 0x812F) := by decide
theorem test_illegal_family9 : decodeWord 0x9AB1 = .error (.unrecognized 0x9AB1) := by decide
theorem test_illegal_familyE : decodeWord 0xE09F = .error (.unrecognized 0xE09F) := by decide
theorem test_illegal_familyF : decodeWord 0xF085 = .error (.unrecognized 0xF085) := by decide
theorem test_truncated : decode [0x6A] = .error .truncated := by decide
theorem test_rest_is_kept : decode [0x6A, 0x05, 0x7A] = .ok (.ldImm 10 0x05, [0x7A]) := by decide

/-! ### Encoding and the table's words (R80, R63, R95) -/

theorem test_encode_ldImm : encode (.ldImm 10 0x05) = 0x6A05 := by decide
theorem test_encode_drw : encode (.drw 1 2 5) = 0xD125 := by decide
theorem test_high_byte_first : encodeBytes (.ldImm 10 0x05) = [0x6A, 0x05] := by decide
theorem test_table_word : decodeTableWord 16 0x812E = some (.shl 1 2) := by decide
theorem test_table_word_refused : decodeTableWord 16 0x8128 = none := by decide

/-- The two examples of R95. -/
theorem test_text : Instr.text .vx (.ldImm 10 0x05) = "LD VA, 0x05" ∧ Instr.text .vx (.drw 1 2 5) = "DRW V1, V2, 5" := by
  decide

theorem test_text_of_shift : Instr.text .vx (.shl 1 2) = "SHL V1" ∧ Instr.text .vy (.shr 1 2) = "SHR V1, V2" := by decide

/-! ### Small states and one step -/

/-- Whether an outcome is a next state. -/
def landed : Host.Outcome State Fault Refusal → Bool
  | .next _ => true
  | .fault _ => false
  | .refused _ => false

/-- The next state of an outcome, `s` where there is none. -/
def result (s : State) : Host.Outcome State Fault Refusal → State
  | .next t => t
  | .fault _ => s
  | .refused _ => s

theorem landed_eq {s : State} {o : Host.Outcome State Fault Refusal} (h : landed o = true) : o = .next (result s o) := by
  cases o <;> simp_all [landed, result]

/-- `s` after one step that runs the word `w`. -/
def after (w : Nat) (s : State) : State := result s (step (s.withFetchWord 16 w))

/-- `s` after the execute step of `i`. -/
def done (i : Instr) (s : State) : State := result s (exec i s)

/-- The reset state with these registers. -/
def withRegs (l : List (Reg × Byte)) : State := l.foldl (fun s p => s.setReg p.1 p.2) State.reset

/-- `s` with these bytes at `a`, `a + 1`, …. -/
def withBytes (a : Nat) (bs : List Byte) (s : State) : State := s.setMem (copyMem s.mem a bs)

/-- How many cells are set. -/
def cellsSet (s : State) : Nat := ((fbRead s).filter id).length

/-! ### Control flow (2.2) -/

theorem test_sys :
    (after 0x0123 State.reset).pc = 0x202 ∧ (after 0x0123 State.reset).fault = none := by
  decide +kernel

theorem test_jp : (after 0x1FFF State.reset).pc = 0xFFF := by decide +kernel
theorem test_jp_odd : (after 0x1201 State.reset).pc = 0x201 := by decide +kernel

/-- A state with `n` calls on the stack, the last from 0x202. -/
def deep (n : Fin 17) (pc : Word) : State :=
  { State.reset with sp := n, pc := pc, stack := Vector.replicate 16 0x202 }

theorem test_call :
    (after 0x2300 { State.reset with pc := 0x202 }).stack[0] = 0x202 ∧
      (after 0x2300 { State.reset with pc := 0x202 }).sp = 1 ∧ (after 0x2300 { State.reset with pc := 0x202 }).pc = 0x300 := by
  decide +kernel

theorem test_call_overflow :
    (after 0x2500 (deep 16 0x400)).fault = some (.stackOverflow 0x400) ∧ (after 0x2500 (deep 16 0x400)).pc = 0x400 ∧
      faultCode (after 0x2500 (deep 16 0x400)).fault = 4 := by
  decide +kernel

theorem test_ret :
    (after 0x00EE (deep 1 0x300)).pc = 0x204 ∧ (after 0x00EE (deep 1 0x300)).sp = 0 := by
  decide +kernel

theorem test_ret_underflow :
    (after 0x00EE (deep 0 0x300)).fault = some (.stackUnderflow 0x300) ∧ (after 0x00EE (deep 0 0x300)).pc = 0x300 ∧
      faultCode (after 0x00EE (deep 0 0x300)).fault = 5 := by
  decide +kernel

theorem test_seImm :
    (after 0x3008 (withRegs [(0, 0x08)])).pc = 0x204 ∧ (after 0x3009 (withRegs [(0, 0x08)])).pc = 0x202 := by
  decide +kernel

theorem test_sneImm :
    (after 0x4008 (withRegs [(0, 0x08)])).pc = 0x202 ∧ (after 0x4009 (withRegs [(0, 0x08)])).pc = 0x204 := by
  decide +kernel

theorem test_seReg :
    (after 0x5120 (withRegs [(1, 3), (2, 3)])).pc = 0x204 ∧ (after 0x5120 (withRegs [(1, 3), (2, 4)])).pc = 0x202 := by
  decide +kernel

theorem test_sneReg :
    (after 0x9120 (withRegs [(1, 3), (2, 4)])).pc = 0x204 ∧ (after 0x9110 (withRegs [(1, 3)])).pc = 0x202 := by
  decide +kernel

theorem test_jpV0 : (after 0xB300 (withRegs [(0, 0x10)])).pc = 0x310 := by decide +kernel
theorem test_jpV0_past_memory : (after 0xBFFF (withRegs [(0, 0xFF)])).pc = 0x10FE := by decide +kernel

/-! ### ALU (2.3) -/

theorem test_ldImm : (after 0x6A05 State.reset).reg 10 = 0x05 := by decide +kernel
theorem test_addImm_wraps :
    (after 0x7A01 (withRegs [(10, 0xFF), (15, 0x33)])).reg 10 = 0x00 ∧ (after 0x7A01 (withRegs [(10, 0xFF), (15, 0x33)])).reg vf = 0x33 := by
  decide +kernel

theorem test_addImm_to_vf : (after 0x7F01 (withRegs [(15, 0xFF)])).reg vf = 0x00 := by decide +kernel
theorem test_ldReg : (after 0x8120 (withRegs [(2, 0x42)])).reg 1 = 0x42 := by decide +kernel
theorem test_orReg :
    (after 0x8121 (withRegs [(1, 0xF0), (2, 0x0F), (15, 0x07)])).reg 1 = 0xFF ∧ (after 0x8121 (withRegs [(1, 0xF0), (2, 0x0F), (15, 0x07)])).reg vf = 0x07 := by
  decide +kernel

theorem test_andReg : (after 0x8122 (withRegs [(1, 0xF0), (2, 0x3C)])).reg 1 = 0x30 := by decide +kernel
theorem test_xorReg : (after 0x8123 (withRegs [(1, 0xF0), (2, 0x3C)])).reg 1 = 0xCC := by decide +kernel
theorem test_addReg_carry :
    (after 0x8014 (withRegs [(0, 0xFF), (1, 0x01)])).reg 0 = 0x00 ∧ (after 0x8014 (withRegs [(0, 0xFF), (1, 0x01)])).reg vf = 1 := by
  decide +kernel

/-- The flag is written last (D6). -/
theorem test_addReg_to_vf :
    (after 0x8F14 (withRegs [(15, 0xFF), (1, 0x01)])).reg vf = 1 := by
  decide +kernel

theorem test_subReg_borrow :
    (after 0x8015 (withRegs [(0, 0x03), (1, 0x05)])).reg 0 = 0xFE ∧ (after 0x8015 (withRegs [(0, 0x03), (1, 0x05)])).reg vf = 0 := by
  decide +kernel

theorem test_subReg_equal :
    (after 0x8015 (withRegs [(0, 0x05), (1, 0x05)])).reg 0 = 0x00 ∧ (after 0x8015 (withRegs [(0, 0x05), (1, 0x05)])).reg vf = 1 := by
  decide +kernel

theorem test_shr :
    (after 0x8016 (withRegs [(0, 0x04), (1, 0xFF)])).reg 0 = 0x02 ∧ (after 0x8016 (withRegs [(0, 0x04), (1, 0xFF)])).reg vf = 0 := by
  decide +kernel

/-- D8. -/
theorem test_shr_vf : (after 0x8F06 (withRegs [(15, 0xFF)])).reg vf = 0x00 := by decide +kernel
theorem test_subn :
    (after 0x8017 (withRegs [(0, 0x03), (1, 0x05)])).reg 0 = 0x02 ∧ (after 0x8017 (withRegs [(0, 0x03), (1, 0x05)])).reg vf = 1 := by
  decide +kernel

theorem test_subn_borrow :
    (after 0x8017 (withRegs [(0, 0x05), (1, 0x03)])).reg 0 = 0xFE ∧ (after 0x8017 (withRegs [(0, 0x05), (1, 0x03)])).reg vf = 0 := by
  decide +kernel

theorem test_shl :
    (after 0x800E (withRegs [(0, 0xFF)])).reg 0 = 0xFE ∧ (after 0x800E (withRegs [(0, 0xFF)])).reg vf = 1 := by
  decide +kernel

/-- D8. -/
theorem test_shl_vf : (after 0x8F0E (withRegs [(15, 0x80)])).reg vf = 0x02 := by decide +kernel
/-- The draw is a free value; masked by 0 it is 0, whatever it is. -/
theorem test_rnd_masked : (done (.rnd 3 0x00) State.reset).reg 3 = 0x00 :=
  show (Config.rand 0 &&& 0 : Byte) = 0 from BitVec.and_zero
theorem test_rnd_draws : (after 0xC3FF State.reset).draws = 1 := by decide +kernel

/-! ### Index register and memory (2.4) -/

theorem test_ldI : (after 0xA300 State.reset).i = 0x300 := by decide +kernel
theorem test_addI :
    (after 0xF21E { withRegs [(2, 0x03)] with i := 0x0FFE }).i = 0x1001 := by
  decide +kernel

theorem test_addI_wraps :
    (after 0xF01E { withRegs [(0, 0x01), (15, 7)] with i := 0xFFFF }).i = 0x0000 ∧
      (after 0xF01E { withRegs [(0, 0x01), (15, 7)] with i := 0xFFFF }).reg vf = 7 := by
  decide +kernel

theorem test_ldF : (after 0xF029 (withRegs [(0, 0x05)])).i = 0x019 := by decide +kernel
theorem test_ldF_past_glyphs : (after 0xF029 (withRegs [(0, 0xFF)])).i = 0x4FB := by decide +kernel

/-- The bytes at `a`, `a + 1`, `a + 2`. -/
def three (a : Nat) (s : State) : List Byte := [Memory.read s.mem a, Memory.read s.mem (a + 1), Memory.read s.mem (a + 2)]

theorem test_ldB_top :
    three 0xFFD (after 0xF033 { withRegs [(0, 0xFE)] with i := 0xFFD }) = [0x02, 0x05, 0x04] := by
  decide +kernel

theorem test_ldB_fault :
    (after 0xF033 { withRegs [(0, 0xFE)] with i := 0xFFE }).fault = some (.memory 0x1000 .write 0x200) ∧
      Memory.read (after 0xF033 { withRegs [(0, 0xFE)] with i := 0xFFE }).mem 0xFFE = 0 := by
  decide +kernel

/-- The example of R175. -/
theorem test_dump :
    three 0x300 (after 0xF255 { withRegs [(0, 0x11), (1, 0x22), (2, 0x33)] with i := 0x300 }) = [0x11, 0x22, 0x33] ∧
      (after 0xF255 { withRegs [(0, 0x11), (1, 0x22), (2, 0x33)] with i := 0x300 }).i = 0x303 := by
  decide +kernel

theorem test_dump_fault :
    (after 0xFF55 { withRegs [(0, 9)] with i := 0xFF1 }).fault = some (.memory 0x1000 .write 0x200) ∧
      (after 0xFF55 { withRegs [(0, 9)] with i := 0xFF1 }).i = 0xFF1 ∧
      Memory.read (after 0xFF55 { withRegs [(0, 9)] with i := 0xFF1 }).mem 0xFF1 = 0 := by
  decide +kernel


/-- The bytes 02 05 04 at 0x300 and I there. -/
def bytesAt300 : State := { withBytes 0x300 [0x02, 0x05, 0x04] State.reset with i := 0x300 }

theorem test_load :
    (after 0xF265 bytesAt300).reg 0 = 0x02 ∧ (after 0xF265 bytesAt300).reg 1 = 0x05 ∧
      (after 0xF265 bytesAt300).reg 2 = 0x04 ∧ (after 0xF265 bytesAt300).i = 0x303 := by
  decide +kernel

theorem test_load_fault :
    (after 0xF165 { State.reset with i := 0xFFF }).fault = some (.memory 0x1000 .read 0x200) ∧
      (after 0xF165 { State.reset with i := 0xFFF }).i = 0xFFF := by
  decide +kernel


/-! ### Framebuffer (2.5) -/

/-- Glyph 5 at (0, 0): I at the glyph, V1 = V2 = 0. -/
def glyph5 : State := { State.reset with i := 0x019 }

theorem test_cls : cellsSet (after 0x00E0 (after 0xD125 glyph5)) = 0 := by decide +kernel
theorem test_drw_glyph_and_again :
    cellsSet (after 0xD125 glyph5) = 14 ∧ pixel (after 0xD125 glyph5).fb 3 3 = true ∧
      (after 0xD125 glyph5).reg vf = 0 ∧ cellsSet (after 0xD125 (after 0xD125 glyph5)) = 0 ∧
      (after 0xD125 (after 0xD125 glyph5)).reg vf = 1 := by
  decide +kernel


/-- One sprite byte `b` at 0x300, V1 = `x`, V2 = 0, VF = 3. -/
def oneRow (x b : Byte) : State := { withBytes 0x300 [b] (withRegs [(1, x), (15, 3)]) with i := 0x300 }

/-- The last column, a set bit past it, x0 read from VF before VF is cleared, and no rows. -/
theorem test_drw_edges :
    pixel (after 0xD121 (oneRow 56 0x01)).fb 63 0 = true ∧ (after 0xD121 (oneRow 56 0x01)).fault = none ∧
      (after 0xD121 (oneRow 60 0xF8)).fault = some (.framebuffer 64 0 0x200) ∧
      cellsSet (after 0xD121 (oneRow 60 0xF8)) = 0 ∧ (after 0xD121 (oneRow 60 0xF8)).reg vf = 3 ∧
      pixel (after 0xDF11 (oneRow 0 0x80)).fb 3 0 = true ∧ (after 0xD120 (oneRow 0 0x80)).reg vf = 0 := by
  decide +kernel


/-! ### Keypad and timers (2.6) -/

/-- Key 0xA pressed or not, V5 = 0x0A. -/
def key10 (down : Bool) : State := keyWrite 10 down (withRegs [(5, 0x0A)])

theorem test_skp :
    (after 0xE59E (key10 true)).pc = 0x204 ∧ (after 0xE59E (key10 false)).pc = 0x202 := by
  decide +kernel

theorem test_skp_fault :
    (after 0xE59E (withRegs [(5, 0x10)])).fault = some (.keypad 0x10 0x200) := by
  decide +kernel

theorem test_sknp :
    (after 0xE5A1 (key10 true)).pc = 0x202 ∧ (after 0xE5A1 (key10 false)).pc = 0x204 := by
  decide +kernel


/-- V2 = 3, DT = ST = 5, key 3 pressed or not. -/
def key3 (down : Bool) : State := keyWrite 3 down { withRegs [(2, 3)] with dt := 5, st := 5 }

theorem test_ldVxK_waits :
    (after 0xF20A (key3 false)).pc = 0x200 ∧ (after 0xF20A (key3 false)).dt = 4 ∧ (after 0xF20A (key3 false)).st = 4 := by
  decide +kernel

theorem test_ldVxK_goes_on :
    (after 0xF20A (key3 true)).pc = 0x202 ∧ (after 0xF20A (key3 true)).reg 2 = 3 := by
  decide +kernel

theorem test_ldVxDt :
    (after 0xF107 { State.reset with dt := 5 }).reg 1 = 5 ∧ (after 0xF107 { State.reset with dt := 5 }).dt = 4 := by
  decide +kernel

theorem test_ldDtVx :
    (after 0xF015 (withRegs [(0, 3)])).dt = 2 ∧ (after 0xF015 (withRegs [(0, 0)])).dt = 0 := by
  decide +kernel

theorem test_ldStVx_beeps :
    (after 0xF018 (withRegs [(0, 2)])).st = 1 ∧ (after 0xF018 (withRegs [(0, 2)])).beep = true := by
  decide +kernel

theorem test_ldStVx_one_is_silent :
    (after 0xF018 (withRegs [(0, 1)])).st = 0 ∧ (after 0xF018 (withRegs [(0, 1)])).beep = false := by
  decide +kernel


/-! ### Faults and the host (2.7) -/

/-- The start state of 2.7's first vector, but for its word. -/
def timersRunning : State := { State.reset with dt := 5, st := 2, beep := true }

theorem test_decode_fault :
    (after 0x8128 timersRunning).fault = some (.decode 0x8128 0x200) ∧ (after 0x8128 timersRunning).pc = 0x200 ∧
      (after 0x8128 timersRunning).dt = 5 ∧ (after 0x8128 timersRunning).st = 2 ∧
      (after 0x8128 timersRunning).beep = false ∧ faultCode (after 0x8128 timersRunning).fault = 1 := by
  decide +kernel

theorem test_fetch_at_top :
    (result State.reset (step { State.reset with pc := 0xFFF })).fault = some (.memory 0x1000 .fetch 0xFFF) := by
  decide +kernel

theorem test_oversized_image :
    (reset (List.replicate 3585 0) State.reset).fault = some (.load 3585) := by
  decide +kernel

theorem test_host_key_byte :
    (keyWriteByte 4 0x80 State.reset).key 4 = true ∧ (keyWriteByte 4 0 State.reset).key 4 = false := by
  decide +kernel

theorem test_key_wait_operand_index :
    (result State.reset (stepWith { defaults with waitKeySelect := .operandIndex }
      ((keyWrite 2 true (withRegs [(2, 3)])).withFetchWord 16 0xF20A))).pc = 0x202 := by
  decide +kernel

theorem test_shift_source_vy :
    (result State.reset (stepWith { defaults with shiftSource := .vy }
      ((withRegs [(0, 0x04), (1, 0xFF)]).withFetchWord 16 0x8016))).reg 0 = 0x7F := by
  decide +kernel


/-! ### Witnesses: a concrete state that meets the hypotheses of each statement, each clause at a boundary -/

/-- `s` runs the word `w` next. -/
def runs (w : Nat) (s : State) : State := s.withFetchWord 16 w

/-- A state one `RET` from 0x1000: PC at the largest value, one live entry at the largest address. -/
def edge : State := { State.reset with pc := 0x10FE, sp := 1, stack := Vector.replicate 16 0xFFE }

theorem witness_ResetHoldsTheResetTable :
    (79 < 80 ∧ Memory.read State.reset.mem 79 = 0x80) ∧ (80 ≤ 80 ∧ Memory.read State.reset.mem 80 = 0) :=
  by decide +kernel

/-- The hypotheses of a cycle that runs `i` from `s` and takes it to `t` in its execute step. -/
def cycleOf (s : State) (i : Instr) (t : State) : Prop :=
  s.fault = none ∧ s.pc.toNat + 1 ≤ 0xFFF ∧
  decodeWord (wordOfBytes (Memory.read s.mem s.pc.toNat) (Memory.read s.mem (s.pc.toNat + 1))) = .ok i ∧
  exec i s = .next t

theorem witness_StepRunsTheFetchedInstruction_committed :
    cycleOf (runs 0x6A05 { State.reset with pc := 0xFFE }) (.ldImm 10 0x05)
      (done (.ldImm 10 0x05) (runs 0x6A05 { State.reset with pc := 0xFFE })) ∧
    (done (.ldImm 10 0x05) (runs 0x6A05 { State.reset with pc := 0xFFE })).fault = none :=
  ⟨⟨by decide +kernel, by decide +kernel, by decide +kernel, landed_eq (by decide +kernel)⟩, by decide +kernel⟩

theorem witness_StepRunsTheFetchedInstruction_faulted :
    cycleOf (runs 0x00EE State.reset) .ret (done .ret (runs 0x00EE State.reset)) ∧
    (done .ret (runs 0x00EE State.reset)).fault ≠ none :=
  ⟨⟨by decide +kernel, by decide +kernel, by decide +kernel, landed_eq (by decide +kernel)⟩, by decide +kernel⟩

theorem witness_DelayTimerCountsDownEveryCommittedCycle :
    cycleOf (runs 0xF015 (withRegs [(0, 1)])) (.ldDtVx 0) (done (.ldDtVx 0) (runs 0xF015 (withRegs [(0, 1)]))) ∧
    (done (.ldDtVx 0) (runs 0xF015 (withRegs [(0, 1)]))).fault = none ∧
    step (runs 0xF015 (withRegs [(0, 1)])) = .next (after 0xF015 (withRegs [(0, 1)])) :=
  ⟨⟨by decide +kernel, by decide +kernel, by decide +kernel, landed_eq (by decide +kernel)⟩, by decide +kernel,
    landed_eq (by decide +kernel)⟩

theorem witness_FetchPastMemoryFaults :
    ({ State.reset with pc := 0xFFF }).fault = none ∧ 0xFFF < (0xFFF : Word).toNat + 1 ∧ ¬ 0xFFF < (0xFFF : Word).toNat ∧
    0xFFF < (0x1000 : Word).toNat ∧ ¬ 0xFFF < (0xFFE : Word).toNat + 1 :=
  by decide +kernel

theorem witness_UndecodableWordFaults :
    (runs 0x8128 State.reset).fault = none ∧ (runs 0x8128 State.reset).pc.toNat + 1 ≤ 0xFFF ∧
    (0x8128 : Word) = BitVec.ofNat 16 ((Memory.read (runs 0x8128 State.reset).mem 0x200).toNat * 256 +
      (Memory.read (runs 0x8128 State.reset).mem 0x201).toNat) ∧ ∀ i, decodeWord 0x8128 ≠ .ok i :=
  ⟨by decide +kernel, by decide +kernel, by decide +kernel, fun i h => by
    rw [test_illegal_family8_low] at h
    cases h⟩

theorem witness_HaltedCoreNeverChanges :
    ({ State.reset with fault := some (.load 3585) }).fault ≠ none :=
  by decide +kernel

theorem witness_FaultingCycleCommitsNothing :
    (runs 0x00EE State.reset).fault = none ∧ step (runs 0x00EE State.reset) = .next (after 0x00EE State.reset) ∧
    (after 0x00EE State.reset).fault ≠ none :=
  ⟨by decide +kernel, landed_eq (by decide +kernel), by decide +kernel⟩

theorem witness_StepKeepsInvariant :
    Inv edge ∧ step edge = .next (result edge (step edge)) ∧
    Inv (runs 0x00EE { edge with pc := 0x200 }) ∧ (after 0x00EE { edge with pc := 0x200 }).pc = 0x1000 :=
  ⟨by decide +kernel, landed_eq (by decide +kernel), by decide +kernel, by decide +kernel⟩

theorem witness_HostActionsKeepInvariant :
    Inv edge ∧ hostRun [.keyWrite 15 true, .step] edge = .next (result edge (hostRun [.keyWrite 15 true, .step] edge)) :=
  ⟨by decide +kernel, landed_eq (by decide +kernel)⟩

theorem witness_BeepExactlyWhenSoundTimerReachesOne :
    (runs 0x6A05 { State.reset with st := 2 }).fault = none ∧
    step (runs 0x6A05 { State.reset with st := 2 }) = .next (after 0x6A05 { State.reset with st := 2 }) ∧
    (after 0x6A05 { State.reset with st := 2 }).fault = none ∧ (after 0x6A05 { State.reset with st := 2 }).beep = true ∧
    ∀ x, decodeWord 0x6A05 ≠ .ok (.ldStVx x) :=
  ⟨by decide +kernel, landed_eq (by decide +kernel), by decide +kernel, by decide +kernel, by decide +kernel⟩

/-- The clause for DT is met by the state of `witness_DelayTimerCountsDownEveryCommittedCycle`. -/
theorem witness_WrittenTimerCountsInTheSameCycle :
    cycleOf (runs 0xF018 (withRegs [(0, 2)])) (.ldStVx 0) (done (.ldStVx 0) (runs 0xF018 (withRegs [(0, 2)]))) ∧
    step (runs 0xF018 (withRegs [(0, 2)])) = .next (after 0xF018 (withRegs [(0, 2)])) :=
  ⟨⟨by decide +kernel, by decide +kernel, by decide +kernel, landed_eq (by decide +kernel)⟩, landed_eq (by decide +kernel)⟩

theorem witness_KeyWaitLastsWhileHostIsSilent :
    cycleOf (runs 0xF20A (withRegs [(2, 15)])) (.ldVxK 2) (done (.ldVxK 2) (runs 0xF20A (withRegs [(2, 15)]))) ∧
    ((runs 0xF20A (withRegs [(2, 15)])).reg 2).toNat = (15 : Fin 16).val ∧ (runs 0xF20A (withRegs [(2, 15)])).key 15 = false :=
  ⟨⟨by decide +kernel, by decide +kernel, by decide +kernel, landed_eq (by decide +kernel)⟩, by decide +kernel, by decide +kernel⟩

theorem witness_DecodeOfEncodeIsTheInstruction :
    (Instr.sys 0xFFF).wellFormed = true ∧ (Instr.drw 15 15 15).wellFormed = true :=
  by decide +kernel

theorem witness_EveryWordIsOneInstructionOrUnrecognized :
    decodeWord 0xF065 = .ok (.load 0) ∧ (Instr.load 0).wellFormed = true ∧ encode (.load 0) = 0xF065 ∧
    decodeWord 0xF066 = .error (.unrecognized 0xF066) :=
  by decide +kernel

theorem witness_ReturnResumesPastTheCall :
    0 < (deep 1 0x300).sp.val ∧ 0 < (deep 16 0x300).sp.val ∧ (deep 0 0x300).sp.val = 0 :=
  by decide +kernel

/-- Also the state of `CallThenReturnComesBack`, and the last clause of `MemoryAndCallFaultsAreTaken`. -/
theorem witness_CallPushesItsOwnAddress :
    (deep 15 0x400).sp.val < 16 ∧ (deep 16 0x400).sp.val = 16 :=
  by decide +kernel

/-- Both sides of the conditions of `SkipIfEqualsImmediate` and `OtherSkipsFollowTheirConditions`. -/
theorem witness_skipsWhen :
    (withRegs [(1, 3)]).reg 1 = 3 ∧ ¬ (withRegs [(1, 3)]).reg 1 = 4 ∧ (withRegs [(1, 3), (2, 3)]).reg 1 = (withRegs [(1, 3), (2, 3)]).reg 2 :=
  by decide +kernel

theorem witness_PcMovesByTwoFourOrAbsolutely :
    exec .cls State.reset = .next (done .cls State.reset) ∧ (done .cls State.reset).pc = 0x202 ∧
    exec (.seImm 0 0) State.reset = .next (done (.seImm 0 0) State.reset) ∧ (done (.seImm 0 0) State.reset).pc = 0x204 ∧
    exec (.ldVxK 0) State.reset = .next (done (.ldVxK 0) State.reset) ∧ (done (.ldVxK 0) State.reset).pc = 0x200 ∧
    (done (.ldVxK 0) State.reset).fault = none ∧ Instr.cls ≠ .ret ∧ ∀ n, Instr.cls ≠ .jp n ∧ Instr.cls ≠ .call n ∧ Instr.cls ≠ .jpV0 n :=
  ⟨landed_eq (by decide +kernel), by decide +kernel, landed_eq (by decide +kernel), by decide +kernel,
    landed_eq (by decide +kernel), by decide +kernel, by decide +kernel, by decide, by simp⟩

theorem witness_ShiftsMoveTheBitIntoVf :
    (14 : Reg) ≠ vf ∧ ((withRegs [(15, 0x80)]).reg vf).toNat ≥ 128 ∧ ¬ ((withRegs [(15, 0x7F)]).reg vf).toNat ≥ 128 :=
  by decide +kernel

theorem witness_MemoryAndCallFaultsAreTaken_and_BcdStoresThreeDigitsOrFaults :
    dataAddr 0xFFD 2 ≤ 0xFFF ∧ 0xFFF < dataAddr 0xFFE 2 ∧ ¬ 0xFFF < (0xFFE : Word).toNat ∧ 0xFFF < (0x1000 : Word).toNat ∧
    0xFFF < dataAddr 0xFFFF 2 :=
  by decide +kernel

/-- Also the hypothesis of `DumpThenLoadRestoresRegisters` and two clauses of `MemoryAndCallFaultsAreTaken`. -/
theorem witness_DumpStoresRegistersOrFaults_and_LoadFillsRegistersOrFaults :
    dataAddr 0xFF0 (15 : Reg).val ≤ 0xFFF ∧ 0xFFF < dataAddr 0xFF1 (15 : Reg).val ∧ dataAddr 0xFFF (0 : Reg).val ≤ 0xFFF ∧
    0xFFF < dataAddr 0x1000 (0 : Reg).val :=
  by decide +kernel

theorem witness_ClearScreenClearsEveryCell :
    63 < 64 ∧ 31 < 32 ∧ pixel (after 0xD125 glyph5).fb 0 0 = true :=
  by decide +kernel

theorem witness_DrawInvertsTheCoveredCells :
    drawable glyph5.mem glyph5.i.toNat (glyph5.reg 1).toNat (glyph5.reg 2).toNat (5 : Nibble).toNat ∧
    covers glyph5.mem glyph5.i.toNat (glyph5.reg 1).toNat (glyph5.reg 2).toNat (5 : Nibble).toNat 3 3 ∧
    ¬ covers glyph5.mem glyph5.i.toNat (glyph5.reg 1).toNat (glyph5.reg 2).toNat (5 : Nibble).toNat 63 31 :=
  ⟨by decide +kernel, ⟨3, 3, by decide, by decide, by decide, by decide, by decide +kernel⟩, fun ⟨r, c, h⟩ => by
    have hx : (63 : Nat) = 0 + c := h.2.2.1
    omega⟩

theorem witness_DrawInvertsTheCoveredCells_at_the_edge :
    drawable (oneRow 60 0xF0).mem (oneRow 60 0xF0).i.toNat ((oneRow 60 0xF0).reg 1).toNat ((oneRow 60 0xF0).reg 2).toNat
      (1 : Nibble).toNat :=
  by decide +kernel

theorem witness_DrawReportsTheFirstFault_framebuffer :
    ¬ drawable (oneRow 57 0x01).mem (oneRow 57 0x01).i.toNat ((oneRow 57 0x01).reg 1).toNat ((oneRow 57 0x01).reg 2).toNat
      (1 : Nibble).toNat :=
  by decide +kernel

theorem witness_DrawReportsTheFirstFault_memory :
    ¬ drawable State.reset.mem (0xFFF : Word).toNat (State.reset.reg 1).toNat (State.reset.reg 2).toNat (2 : Nibble).toNat :=
  by decide +kernel

/-- Also the hypotheses of `SecondDrawCollidesWheneverTheSpriteHasABit` and `DrawAfterClearShowsTheSprite`. -/
theorem witness_DrawingTwiceRestoresTheScreen :
    (1 : Reg) ≠ vf ∧ (2 : Reg) ≠ vf ∧
    drawable glyph5.mem glyph5.i.toNat (glyph5.reg 1).toNat (glyph5.reg 2).toNat (5 : Nibble).toNat ∧
    exec (.drw 1 2 5) glyph5 = .next (done (.drw 1 2 5) glyph5) ∧
    exec (.drw 1 2 5) (done (.drw 1 2 5) glyph5) = .next (done (.drw 1 2 5) (done (.drw 1 2 5) glyph5)) :=
  ⟨by decide, by decide, by decide +kernel, landed_eq (by decide +kernel), landed_eq (by decide +kernel)⟩

/-- Why `SecondDrawCollidesWheneverTheSpriteHasABit` is expected to fail: the one covered cell is set before both draws, so
the first draw clears it and the second hits a cell that is 0 (R192, R194; log entry 18). -/
theorem test_second_draw_of_a_set_cell_does_not_collide :
    (after 0xD121 (after 0xD121 (after 0xD121 { oneRow 0 0x80 with st := 9 }))).reg vf = 0 := by decide +kernel

/-- Also `WaitForKeyAdvancesOnlyWhenPressed`, and (the last part) `KeyIndexAboveFifteenFaults`. -/
theorem witness_KeySkipsFollowTheKey :
    ((withRegs [(5, 15)]).reg 5).toNat = (15 : Fin 16).val ∧ (keyWrite 15 true (withRegs [(5, 15)])).key 15 = true ∧
    (withRegs [(5, 15)]).key 15 = false ∧ 15 < ((withRegs [(5, 16)]).reg 5).toNat :=
  by decide +kernel

/-- Also `RegistersChangeOnlyAsDestinationOrFlag`. -/
theorem witness_InstructionsWriteOnlyTheirParts :
    exec (.addReg 1 2) State.reset = .next (done (.addReg 1 2) State.reset) ∧ regWritten (.addReg 1 2) 3 = false ∧
    regWritten (.addReg 1 2) vf = true :=
  ⟨landed_eq (by decide +kernel), by decide, by decide⟩

theorem witness_NoInstructionReadsTheSoundTimer :
    (∀ x, Instr.cls ≠ .ldStVx x) ∧ ∃ x, Instr.ldStVx 3 = .ldStVx x :=
  ⟨by simp, 3, rfl⟩

theorem witness_KeypadAndScreenAreReadOnlyByTheirInstructions :
    (∀ x, Instr.ret ≠ .skp x ∧ Instr.ret ≠ .sknp x ∧ Instr.ret ≠ .ldVxK x) ∧ Instr.ret ≠ .cls ∧ ∀ x y n, Instr.ret ≠ .drw x y n :=
  by simp

theorem witness_DeadStackEntriesAreUnobservable :
    sameButDeadStack (deep 15 0x200) { deep 15 0x200 with stack := (deep 15 0x200).stack.set 15 7 } ∧
    (deep 15 0x200).stack[15] ≠ ((deep 15 0x200).stack.set 15 7)[15] :=
  ⟨⟨rfl, by decide +kernel⟩, by decide +kernel⟩

/-- The addresses below the image reach 0x1FF, those past it begin at 0x1000. -/
theorem witness_ResetLoadsTheImage :
    (List.replicate 3584 (0x12 : Byte)).length ≤ 3584 ∧ 0x200 + (List.replicate 3584 (0x12 : Byte)).length ≤ 0x1000 ∧
    (79 < 80) ∧ 80 ≤ 0x1FF ∧ 0x1FF < 0x200 :=
  by
  rw [List.length_replicate]
  decide

theorem witness_OversizedImageIsRejected :
    3584 < (List.replicate 3585 (0 : Byte)).length :=
  by
  rw [List.length_replicate]
  decide

theorem witness_AlternativeAluParametersActAsDecided :
    ({ defaults with logicClearsVf := true }).logicClearsVf = true ∧ ({ defaults with shiftSource := .vy }).shiftSource = .vy :=
  by decide

theorem witness_AlternativeControlParametersActAsDecided :
    ({ defaults with sysBehaviour := .fault }).sysBehaviour = .fault ∧
    ({ defaults with emptyRet := .noop }).emptyRet = .noop ∧ State.reset.sp.val = 0 ∧
    ({ defaults with waitKeySelect := .operandIndex }).waitKeySelect = .operandIndex ∧
    (keyWrite 15 true State.reset).key 15 = true ∧ State.reset.key 15 = false :=
  by decide +kernel

end Sys2Proof.Tests
end

/-! PROOF. What a cycle that records a fault commits: the fault entry alone, whether the fetch, the decode or the
instruction raised it (spec/60_exceptions.md R236, D2; spec/00_scope.md R10). -/

namespace Sys2Proof.Machine

/-- The timers do not clear or write the record, so a cycle that committed ends without one: a record in the state
answered was written by the fault entry, from the state the cycle began with. -/
theorem step_faulted {s t : State} (hs : s.fault = none) (h : step s = .next t) (ht : t.fault ≠ none) :
    ∃ f, t = takeFault s f := by
  rcases step_cases h with ⟨hHalted, _⟩ | ⟨_, f, hTaken⟩ | ⟨_, _, i, u, _, _, hu, hTick⟩
  · exact absurd hs hHalted
  · exact ⟨f, hTaken⟩
  · rw [hTick, timerTick_fault] at ht
    exact absurd hu ht

/-- Settles O9: the state answered is a fault entry, which changes FAULT and BEEP only. -/
theorem faultingCycleCommitsNothing : Obligations.FaultingCycleCommitsNothing := by
  intro s t hs h ht
  obtain ⟨f, rfl⟩ := step_faulted hs h ht
  rfl

end Sys2Proof.Machine

/-! PROOF. CALL and RET by the height of the stack, and that every instruction answers a next state
(spec/10_state.md R27, R28, spec/40_control_flow.md R112, R114). -/

namespace Sys2Proof.Machine

/-- RET with a live entry: the top entry is popped and execution resumes two past it (R112). -/
theorem exec_ret_ok {s : State} (h : 0 < s.sp.val) :
    exec .ret s = .next { s with pc := s.stack[s.sp.val - 1] + 2, sp := ⟨s.sp.val - 1, by omega⟩ } := by
  simp only [exec, execRet, retOp, State.pop, dif_neg (Nat.pos_iff_ne_zero.mp h)]
  rfl

/-- RET with no live entry (R28, D4). -/
theorem exec_ret_empty {s : State} (h : s.sp.val = 0) :
    exec .ret s = .next (takeFault s (.stackUnderflow s.pc)) := by
  simp only [exec, execRet, retOp, State.pop, dif_pos h]
  rfl

/-- CALL with a free entry: its own address is pushed (R114, R27). -/
theorem exec_call_ok (nnn : Addr12) {s : State} (h : s.sp.val < 16) :
    exec (.call nnn) s = .next { s with
      pc := zext16 nnn, stack := s.stack.set s.sp.val s.pc, sp := ⟨s.sp.val + 1, by omega⟩ } := by
  simp only [exec, execCall, State.push, dif_pos h]
  rfl

/-- CALL with the stack full (R27). -/
theorem exec_call_full (nnn : Addr12) {s : State} (h : 16 ≤ s.sp.val) :
    exec (.call nnn) s = .next (takeFault s (.stackOverflow s.pc)) := by
  simp only [exec, execCall, State.push, dif_neg (not_lt.mpr h)]
  rfl

/-- No instruction stops the model (log entry 1). -/
theorem exec_isNext (i : Instr) (s : State) : ∃ t, exec i s = .next t := by
  cases i
  case ret =>
    rcases Nat.eq_zero_or_pos s.sp.val with h | h
    · exact ⟨_, exec_ret_empty h⟩
    · exact ⟨_, exec_ret_ok h⟩
  case call | drw | skp | sknp | ldVxK | ldB | dump | load => exact complete_isNext _ _
  all_goals exact ⟨_, rfl⟩

end Sys2Proof.Machine

/-! PROOF. The invariant `Inv`: one lemma for each way an instruction ends, then every instruction, every step and
every host action (spec/10_state.md R23, R38, R39). -/

namespace Sys2Proof.Machine

/-! ### What keeps the invariant

`Inv` speaks of memory, PC and stack only, so an update of any other part keeps it by definition. -/

theorem inv_goto {s : State} {w : Word} (hs : Inv s) (hw : w.toNat ≤ 0x10FE) : Inv (s.goto w) :=
  have ⟨hmem, _, hlive⟩ := hs
  ⟨hmem, hw, hlive⟩

/-- From a PC the fetch allows, the advance stays far below the bound and does not wrap. -/
theorem inv_next {s : State} (hs : Inv s) (hpc : s.pc.toNat ≤ 0xFFE) : Inv s.next :=
  inv_goto hs (by bv_omega)

theorem inv_skipIf {s : State} (c : Bool) (hs : Inv s) (hpc : s.pc.toNat ≤ 0xFFE) : Inv (s.skipIf c) :=
  inv_goto hs (by cases c <;> simp only [if_true, if_false, Bool.false_eq_true] <;> bv_omega)

theorem inv_setMem {s : State} {m : Memory} (hs : Inv s) (hm : Memory.wf m) : Inv (s.setMem m) :=
  have ⟨_, hpc, hlive⟩ := hs
  ⟨hm, hpc, hlive⟩

theorem inv_takeFault {s : State} (f : Fault) (hs : Inv s) : Inv (takeFault s f) := hs

/-- A raising instruction keeps the invariant if its committed working copies do. -/
theorem inv_complete_map {α : Type} {s t : State} {r : Except Fault α} {g : α → State} (hs : Inv s)
    (hg : ∀ a, r = .ok a → Inv (g a)) (h : complete s (r.map g) = .next t) : Inv t := by
  rcases complete_map_cases h with ⟨a, ha, rfl⟩ | ⟨f, _, rfl⟩
  · exact hg a ha
  · exact inv_takeFault f hs

/-- RET resumes past a live entry, so by `Inv` at most at 0x1000, and leaves fewer entries live. -/
theorem inv_exec_ret {s t : State} (hs : Inv s) (h : exec .ret s = .next t) : Inv t := by
  obtain ⟨hmem, hpc, hlive⟩ := hs
  rcases Nat.eq_zero_or_pos s.sp.val with h0 | hp
  · rw [exec_ret_empty h0] at h
    cases h
    exact inv_takeFault _ ⟨hmem, hpc, hlive⟩
  · rw [exec_ret_ok hp] at h
    cases h
    have htop : s.stack[s.sp.val - 1].toNat ≤ 0xFFE := hlive ⟨s.sp.val - 1, by omega⟩ (Nat.sub_lt hp one_pos)
    exact ⟨hmem, by simp only; bv_omega, fun k hk => hlive k (lt_of_lt_of_le hk (Nat.sub_le _ _))⟩

/-- CALL pushes the address the fetch allowed and keeps the other live entries. -/
theorem inv_exec_call {nnn : Addr12} {s t : State} (hs : Inv s) (hf : s.pc.toNat ≤ 0xFFE)
    (h : exec (.call nnn) s = .next t) : Inv t := by
  obtain ⟨hmem, hpc, hlive⟩ := hs
  rcases Nat.lt_or_ge s.sp.val 16 with hlt | hge
  · rw [exec_call_ok nnn hlt] at h
    cases h
    refine ⟨hmem, by simp only [zext16_toNat]; omega, fun k hk => ?_⟩
    simp only [Vector.getElem_set]
    split
    · exact hf
    · next hne => exact hlive k (by simp only at hk; omega)
  · rw [exec_call_full nnn hge] at h
    cases h
    exact inv_takeFault _ ⟨hmem, hpc, hlive⟩

/-- An instruction fetched inside the memory keeps the invariant. -/
theorem exec_keeps_inv {i : Instr} {s t : State} (hs : Inv s) (hpc : s.pc.toNat ≤ 0xFFE)
    (h : exec i s = .next t) : Inv t := by
  have ⟨hmem, hbound, _⟩ := hs
  cases i
  case ret => exact inv_exec_ret hs h
  case call => exact inv_exec_call hs hpc h
  case jp nnn => cases h; exact inv_goto hs (by rw [zext16_toNat]; omega)
  case jpV0 nnn => cases h; exact inv_goto hs (by rw [offsetTarget_toNat]; omega)
  case seImm | sneImm | seReg | sneReg => cases h; exact inv_skipIf _ hs hpc
  case skp | sknp => exact inv_complete_map hs (fun _ _ => inv_skipIf _ hs hpc) h
  case ldVxK =>
    refine inv_complete_map hs (fun k _ => ?_) h
    split
    · exact inv_next hs hpc
    · exact inv_goto hs hbound
  case ldB => exact inv_complete_map hs (fun _ hm => inv_next (inv_setMem hs (memWriteAll_wf hmem hm)) hpc) h
  case dump =>
    refine inv_complete_map hs (fun r hr => ?_) h
    have hm : Inv (s.setMem r.1) := inv_setMem hs (dumpLoop_wf hmem hr)
    exact inv_next hm hpc
  case drw | load =>
    refine inv_complete_map hs (fun _ _ => ?_) h
    exact inv_next hs hpc
  all_goals (cases h; exact inv_next hs hpc)

/-- Settles O10: a halted core stays, the fault entry and the timers touch no part of the invariant, and the fetch
admits only a PC within 0xFFE to the execute step. -/
theorem stepKeepsInvariant : Obligations.StepKeepsInvariant := by
  intro s t hs h
  rcases step_cases h with ⟨_, rfl⟩ | ⟨_, f, rfl⟩ | ⟨_, hpc, i, u, _, hu, _, rfl⟩
  · exact hs
  · exact inv_takeFault f hs
  · have hinv : Inv u := exec_keeps_inv hs (by omega) hu
    exact hinv

/-! ### The host's actions -/

/-- A reset constructs a state that meets the invariant, or rejects its image and records that only (R270, R271). -/
theorem inv_reset (image : List Byte) {s : State} (hs : Inv s) : Inv (reset image s) := by
  unfold reset resetWith
  split
  · exact hs
  · next h =>
    have hpc : State.reset.pc.toNat ≤ 0x10FE := by decide
    exact ⟨constructMem_wf (not_lt.mp h), hpc, fun k hk => absurd hk (Nat.not_lt_zero _)⟩

theorem hostAct_keeps_inv {a : HostAction} {s t : State} (hs : Inv s) (h : hostAct a s = .next t) : Inv t := by
  cases a with
  | step => exact stepKeepsInvariant s t hs h
  | keyWrite k v => cases h; exact hs
  | reset image => cases h; exact inv_reset image hs

/-- A host's run that ends went through the next state of its first action. -/
theorem hostRun_cons {a : HostAction} {as : List HostAction} {s u : State} (h : hostRun (a :: as) s = .next u) :
    ∃ t, hostAct a s = .next t ∧ hostRun as t = .next u := by
  rw [hostRun] at h
  split at h
  · next t ht => exact ⟨t, ht, h⟩
  · cases h
  · cases h

/-- Settles O11, by induction on the host's actions. -/
theorem hostActionsKeepInvariant : Obligations.HostActionsKeepInvariant := by
  intro as
  induction as with
  | nil => intro s t hs h; cases h; exact hs
  | cons a as ih =>
    intro s u hs h
    obtain ⟨t, ht, hu⟩ := hostRun_cons h
    exact ih t u (hostAct_keeps_inv hs ht) hu

end Sys2Proof.Machine

/-! PROOF. Frames: what each state operation leaves unchanged, then the table of all 35 instructions
(spec/10_state.md R21, R22, R31). -/

namespace Sys2Proof.Machine

/-! ### Frames compose -/

theorem changesOnly.mono {ps qs : List Part} {s t : State} (h : changesOnly ps s t) (hsub : ∀ p ∈ ps, p ∈ qs) :
    changesOnly qs s t :=
  fun p hp => h p fun hin => hp (hsub p hin)

theorem Part.same_trans {p : Part} {s t u : State} (h : p.same s t) (h' : p.same t u) : p.same s u := by
  cases p
  case regs | memory => exact fun a => (h' a).trans (h a)
  case stack => exact ⟨h'.1.trans h.1, h'.2.trans h.2⟩
  all_goals exact Eq.trans h' h

theorem changesOnly.trans {ps qs : List Part} {s t u : State} (h : changesOnly ps s t) (h' : changesOnly qs t u) :
    changesOnly (ps ++ qs) s u := by
  intro p hp
  rw [List.mem_append, not_or] at hp
  exact Part.same_trans (h p hp.1) (h' p hp.2)

/-! ### One frame for each state operation -/

theorem changesOnly_setReg (s : State) (x : Reg) (b : Byte) : changesOnly [.regs] s (s.setReg x b) := by
  intro p hp
  cases p <;> simp_all [Part.same]

theorem changesOnly_setRegs (s : State) (v : Regs) : changesOnly [.regs] s (s.setRegs v) := by
  intro p hp
  cases p <;> simp_all [Part.same]

theorem changesOnly_setI (s : State) (w : Word) : changesOnly [.index] s (s.setI w) := by
  intro p hp
  cases p <;> simp_all [Part.same]

theorem changesOnly_goto (s : State) (w : Word) : changesOnly [.pc] s (s.goto w) := by
  intro p hp
  cases p <;> simp_all [Part.same]

theorem changesOnly_setDt (s : State) (b : Byte) : changesOnly [.delay] s (s.setDt b) := by
  intro p hp
  cases p <;> simp_all [Part.same]

theorem changesOnly_setSt (s : State) (b : Byte) : changesOnly [.sound] s (s.setSt b) := by
  intro p hp
  cases p <;> simp_all [Part.same]

theorem changesOnly_setFb (s : State) (fb : Framebuffer) : changesOnly [.screen] s (s.setFb fb) := by
  intro p hp
  cases p <;> simp_all [Part.same]

theorem changesOnly_setMem (s : State) (m : Memory) : changesOnly [.memory] s (s.setMem m) := by
  intro p hp
  cases p <;> simp_all [Part.same]

theorem changesOnly_countDraw (s : State) : changesOnly [.draws] s s.countDraw := by
  intro p hp
  cases p <;> simp_all [Part.same]

theorem changesOnly_takeFault (s : State) (f : Fault) : changesOnly [.fault, .beep] s (takeFault s f) := by
  intro p hp
  cases p <;> simp_all [Part.same]

/-- A jump together with a push or a pop. -/
theorem changesOnly_pc_stack (s : State) (pc : Word) (sp : Fin 17) (stack : Vector Word 16) :
    changesOnly [.pc, .stack] s { s with pc := pc, sp := sp, stack := stack } := by
  intro p hp
  cases p <;> simp_all [Part.same, State.reg]

/-- A register write and a jump. -/
theorem changesOnly_setReg_goto (s : State) (x : Reg) (b : Byte) (w : Word) :
    changesOnly [.regs, .pc] s ((s.setReg x b).goto w) :=
  (changesOnly_setReg s x b).trans (changesOnly_goto _ w)

/-- Two register writes and a jump: an arithmetic or shift instruction with its flag. -/
theorem changesOnly_setReg_setReg_goto (s : State) (x y : Reg) (a b : Byte) (w : Word) :
    changesOnly [.regs, .pc] s (((s.setReg x a).setReg y b).goto w) :=
  ((changesOnly_setReg s x a).trans (changesOnly_setReg_goto _ y b w)).mono (by decide)

/-- A raising instruction changes what its committed working copies change, or takes a fault. -/
theorem changesOnly_complete_map {α : Type} {ps : List Part} {s t : State} {r : Except Fault α} {g : α → State}
    (hg : ∀ a, changesOnly ps s (g a)) (h : complete s (r.map g) = .next t) :
    changesOnly (ps ++ [.fault, .beep]) s t := by
  rcases complete_map_cases h with ⟨a, _, rfl⟩ | ⟨f, _, rfl⟩
  · exact (hg a).mono fun p hp => List.mem_append_left _ hp
  · exact (changesOnly_takeFault s f).mono fun p hp => List.mem_append_right _ hp

/-! ### RET -/

/-- Settles O20: the two heights of the stack, each with its whole next state. -/
theorem returnResumesPastTheCall : Obligations.ReturnResumesPastTheCall := by
  intro s
  exact ⟨fun h => ⟨_, exec_ret_ok h, rfl, rfl, rfl, changesOnly_pc_stack s _ _ _⟩, exec_ret_empty⟩

/-! ### All instructions -/

theorem changesOnly_exec_ret {s t : State} (h : exec .ret s = .next t) :
    changesOnly [.stack, .pc, .fault, .beep] s t := by
  rcases Nat.eq_zero_or_pos s.sp.val with h0 | hp
  · rw [exec_ret_empty h0] at h
    cases h
    exact (changesOnly_takeFault s _).mono (by decide)
  · rw [exec_ret_ok hp] at h
    cases h
    exact (changesOnly_pc_stack s _ _ _).mono (by decide)

theorem changesOnly_exec_call {nnn : Addr12} {s t : State} (h : exec (.call nnn) s = .next t) :
    changesOnly [.stack, .pc, .fault, .beep] s t := by
  rcases Nat.lt_or_ge s.sp.val 16 with hlt | hge
  · rw [exec_call_ok nnn hlt] at h
    cases h
    exact (changesOnly_pc_stack s _ _ _).mono (by decide)
  · rw [exec_call_full nnn hge] at h
    cases h
    exact (changesOnly_takeFault s _).mono (by decide)

/-- Settles O52, an instruction at a time: the frames of the operations that its meaning is made of. -/
theorem instructionsWriteOnlyTheirParts : Obligations.InstructionsWriteOnlyTheirParts := by
  intro i s t h
  cases i
  case ret => exact changesOnly_exec_ret h
  case call => exact changesOnly_exec_call h
  case sys | jp | jpV0 | seImm | sneImm | seReg | sneReg => cases h; exact changesOnly_goto s _
  case skp | sknp => exact changesOnly_complete_map (fun _ => changesOnly_goto s _) h
  case ldVxK =>
    refine changesOnly_complete_map (ps := [.pc]) (fun k => ?_) h
    split <;> exact changesOnly_goto s _
  case ldImm | addImm | ldReg | orReg | andReg | xorReg | ldVxDt => cases h; exact changesOnly_setReg_goto s _ _ _
  case addReg | subReg | subn | shr | shl => cases h; exact changesOnly_setReg_setReg_goto s _ _ _ _ _
  case rnd =>
    cases h
    exact (((changesOnly_setReg s _ _).trans (changesOnly_countDraw _)).trans (changesOnly_goto _ _)).mono
      (by decide : ∀ p ∈ [Part.regs, .draws, .pc], p ∈ [Part.regs, .pc, .draws])
  case cls => cases h; exact (changesOnly_setFb s _).trans (changesOnly_goto _ _)
  case drw =>
    have hcopy (c : Framebuffer × Bool) : changesOnly [.regs, .screen, .pc] s ((s.setFb c.1).setFlag c.2).next :=
      ((changesOnly_setFb s _).trans (changesOnly_setReg_goto _ _ _ _)).mono (by decide)
    exact changesOnly_complete_map hcopy h
  case ldDtVx => cases h; exact (changesOnly_setDt s _).trans (changesOnly_goto _ _)
  case ldStVx => cases h; exact (changesOnly_setSt s _).trans (changesOnly_goto _ _)
  case ldI | addI | ldF => cases h; exact (changesOnly_setI s _).trans (changesOnly_goto _ _)
  case ldB => exact changesOnly_complete_map (fun _ => (changesOnly_setMem s _).trans (changesOnly_goto _ _)) h
  case dump =>
    exact changesOnly_complete_map
      (fun _ => ((changesOnly_setMem s _).trans (changesOnly_setI _ _)).trans (changesOnly_goto _ _)) h
  case load =>
    exact changesOnly_complete_map
      (fun _ => ((changesOnly_setRegs s _).trans (changesOnly_setI _ _)).trans (changesOnly_goto _ _)) h

/-! ### Single registers -/

/-- FX65 up to register `n - 1` keeps the registers from `n` on (R176). -/
theorem loadLoop_keeps_upper {pc : Word} {m : Memory} {v v' : Regs} {i i' : Word} {n : Nat} (hn : n ≤ 16)
    (h : loadLoop pc m v i n = .ok (v', i')) {r : Reg} (hr : n ≤ r.val) : v'[r.val] = v[r.val] := by
  induction n generalizing v' i' with
  | zero => cases h; rfl
  | succ n ih =>
    rw [loadLoop] at h
    split at h
    · cases h
    · next v'' i'' he =>
      split at h
      · cases h
      · cases h
        have hne : n ≠ r.val := by omega
        rw [Vector.getElem_setIfInBounds_ne r.isLt hne, ih (by omega) he (by omega)]

theorem reg_arithOp_other {x r : Reg} (b : Byte) (flag : Bool) (s : State) (hx : r ≠ x) (hf : r ≠ vf) :
    (arithOp x b flag s).reg r = s.reg r := by
  simp [arithOp, State.setFlag, hx, hf]

theorem reg_shiftOp_other {x r : Reg} (source : ShiftSource) (out : Byte → Bool) (shift : Byte → Byte) (y : Reg)
    (s : State) (hx : r ≠ x) (hf : r ≠ vf) : (shiftOp source out shift x y s).reg r = s.reg r := by
  cases source <;> simp [shiftOp, State.setFlag, hx, hf]

/-- Settles O53: an instruction whose frame holds the register file is done by O52; the others write their destination,
the flag, or registers up to the destination. -/
theorem registersChangeOnlyAsDestinationOrFlag : Obligations.RegistersChangeOnlyAsDestinationOrFlag := by
  intro i s t r h hr
  cases i
  case ldImm | addImm | ldReg | orReg | andReg | xorReg | ldVxDt | rnd =>
    cases h
    exact State.reg_setReg_other s _ (by simpa [regWritten] using hr)
  case addReg | subReg | subn =>
    obtain ⟨hx, hf⟩ : r ≠ _ ∧ r ≠ vf := by simpa [regWritten] using hr
    cases h
    exact reg_arithOp_other _ _ s hx hf
  case shr | shl =>
    obtain ⟨hx, hf⟩ : r ≠ _ ∧ r ≠ vf := by simpa [regWritten] using hr
    cases h
    exact reg_shiftOp_other _ _ _ _ s hx hf
  case drw =>
    rcases complete_map_cases h with ⟨c, _, rfl⟩ | ⟨f, _, rfl⟩
    · exact State.reg_setReg_other _ _ (by simpa [regWritten] using hr)
    · rfl
  case load x =>
    rcases complete_map_cases h with ⟨c, hc, rfl⟩ | ⟨f, _, rfl⟩
    · have hlt : x.val < r.val := by simpa [regWritten] using hr
      exact loadLoop_keeps_upper (by omega) hc hlt
    · rfl
  all_goals exact instructionsWriteOnlyTheirParts _ s t h .regs (by simp [partsWritten]) r

end Sys2Proof.Machine

/-! PROOF. Noninterference: what an instruction neither writes nor reads can be replaced before it or after it
(spec/10_state.md R26, R30, R31, R32). -/

namespace Sys2Proof.Machine

/-- A new value for one of the four parts that no register, index or memory operation reads: ST, the keypad, the
framebuffer, or the entries of the stack (SP is kept). -/
inductive Replacement where
  | sound (b : Byte)
  | keypad (keys : Vector Bool 16)
  | screen (fb : Framebuffer)
  | stack (entries : Vector Word 16)

/-- The state with the part replaced. -/
def Replacement.apply (c : Replacement) (s : State) : State :=
  match c with
  | .sound b => { s with st := b }
  | .keypad keys => { s with keys := keys }
  | .screen fb => { s with fb := fb }
  | .stack entries => { s with stack := entries }

/-- The part replaced. -/
def Replacement.part : Replacement → Part
  | .sound _ => .sound
  | .keypad _ => .keypad
  | .screen _ => .screen
  | .stack _ => .stack

/-- The three instructions that read the keypad (R31). -/
def readsKeypad : Instr → Bool
  | .skp _ => true
  | .sknp _ => true
  | .ldVxK _ => true
  | _ => false

/-- The fault entry (R236) reads none of the four parts. -/
theorem takeFault_apply (c : Replacement) (s : State) (f : Fault) :
    takeFault (c.apply s) f = c.apply (takeFault s f) := by
  cases c <;> rfl

/-- A raising instruction commutes with a replacement if the operation that raises does not see it and each committed
working copy commutes with it. -/
theorem complete_map_apply {α : Type} {c : Replacement} {s : State} {r : Except Fault α} {g g' : α → State}
    (hg : ∀ a, g' a = c.apply (g a)) :
    complete (c.apply s) (r.map g') = mapNext c.apply (complete s (r.map g)) := by
  cases r with
  | ok a => exact congrArg Host.Outcome.next (hg a)
  | error f => exact congrArg Host.Outcome.next (takeFault_apply c s f)

@[simp] theorem Replacement.apply_sp (c : Replacement) (s : State) : (c.apply s).sp = s.sp := by
  cases c <;> rfl

/-- RET sees SP and the stack's entries, and none of the other three parts. -/
theorem exec_ret_apply {c : Replacement} (s : State) (hc : c.part ≠ .stack) :
    exec .ret (c.apply s) = mapNext c.apply (exec .ret s) := by
  rcases Nat.eq_zero_or_pos s.sp.val with h | h
  · rw [exec_ret_empty h, exec_ret_empty (s := c.apply s) (by simpa using h)]
    cases c <;> rfl
  · rw [exec_ret_ok h, exec_ret_ok (s := c.apply s) (by simpa using h)]
    cases c
    case stack => exact absurd rfl hc
    all_goals rfl

theorem exec_call_apply {c : Replacement} (nnn : Addr12) (s : State) (hc : c.part ≠ .stack) :
    exec (.call nnn) (c.apply s) = mapNext c.apply (exec (.call nnn) s) := by
  rcases Nat.lt_or_ge s.sp.val 16 with h | h
  · rw [exec_call_ok nnn h, exec_call_ok nnn (s := c.apply s) (by simpa using h)]
    cases c
    case stack => exact absurd rfl hc
    all_goals rfl
  · rw [exec_call_full nnn h, exec_call_full nnn (s := c.apply s) (by simpa using h)]
    cases c <;> rfl

/-- An instruction commutes with the replacement of a part that it does not write, the keypad only if it does not read
it. No other instruction reads one of the four parts without writing it. -/
theorem exec_apply {i : Instr} {c : Replacement} (s : State) (hw : c.part ∉ partsWritten i)
    (hk : c.part = .keypad → readsKeypad i = false) : exec i (c.apply s) = mapNext c.apply (exec i s) := by
  cases i
  case ret => exact exec_ret_apply s fun h => hw (by simp [h, partsWritten])
  case call nnn => exact exec_call_apply nnn s fun h => hw (by simp [h, partsWritten])
  case ldB | dump | load => cases c <;> exact complete_map_apply fun _ => rfl
  case drw =>
    cases c
    case screen => exact absurd (by simp [Replacement.part, partsWritten]) hw
    all_goals exact complete_map_apply fun _ => rfl
  case skp | sknp =>
    cases c
    case keypad => exact absurd (hk rfl) (by simp [readsKeypad])
    all_goals exact complete_map_apply fun _ => rfl
  case ldVxK =>
    cases c
    case keypad => exact absurd (hk rfl) (by simp [readsKeypad])
    all_goals
      refine complete_map_apply fun k => ?_
      exact Eq.symm (apply_ite _ (s.key k = true) s.next (s.goto s.pc))
  case cls =>
    cases c
    case screen => exact absurd (by simp [Replacement.part, partsWritten]) hw
    all_goals rfl
  case ldStVx =>
    cases c
    case sound => exact absurd (by simp [Replacement.part, partsWritten]) hw
    all_goals rfl
  all_goals cases c <;> rfl

/-- Settles O54: FX18 alone writes ST, and what it leaves does not depend on what it overwrites. -/
theorem noInstructionReadsTheSoundTimer : Obligations.NoInstructionReadsTheSoundTimer := by
  intro i s b
  refine ⟨fun hi => exec_apply (c := .sound b) s ?_ nofun, ?_⟩
  · cases i
    case ldStVx x => exact absurd rfl (hi x)
    all_goals simp [Replacement.part, partsWritten]
  · rintro ⟨x, rfl⟩
    rfl

/-- Settles O55: no instruction writes the keypad, and CLS and DXYN alone write the framebuffer. -/
theorem keypadAndScreenAreReadOnlyByTheirInstructions :
    Obligations.KeypadAndScreenAreReadOnlyByTheirInstructions := by
  intro i s keys fb
  refine ⟨fun hi => exec_apply (c := .keypad keys) s ?_ fun _ => ?_,
    fun hcls hdrw => exec_apply (c := .screen fb) s ?_ nofun⟩
  · cases i <;> simp [Replacement.part, partsWritten]
  · cases i
    case skp x => exact absurd rfl (hi x).1
    case sknp x => exact absurd rfl (hi x).2.1
    case ldVxK x => exact absurd rfl (hi x).2.2
    all_goals rfl
  · cases i
    case cls => exact absurd rfl hcls
    case drw x y n => exact absurd rfl (hdrw x y n)
    all_goals simp [Replacement.part, partsWritten]

end Sys2Proof.Machine

/-! PROOF. Stack entries at SP and above are never seen: RET reads the entry below SP only, and CALL overwrites the one
it makes live (spec/10_state.md R26, U16). -/

namespace Sys2Proof.Machine

/-! ### One equation for each way a cycle ends -/

theorem cycle_halted {ex : Instr → State → Host.Outcome State Fault Refusal} {s : State} (h : s.fault ≠ none) :
    cycle ex s = .next s := by
  obtain ⟨f, hf⟩ := Option.ne_none_iff_exists'.mp h
  simp only [cycle, hf]

theorem cycle_fetch_error {ex : Instr → State → Host.Outcome State Fault Refusal} {s : State} {f : Fault}
    (h : s.fault = none) (hw : fetch s = .error f) : cycle ex s = .next (takeFault s f) := by
  simp only [cycle, h, hw]

theorem cycle_decode_error {ex : Instr → State → Host.Outcome State Fault Refusal} {s : State} {w : Word} {f : Fault}
    (h : s.fault = none) (hw : fetch s = .ok w) (hd : decodeStep s.pc w = .error f) :
    cycle ex s = .next (takeFault s f) := by
  simp only [cycle, h, hw, hd]

theorem cycle_exec {ex : Instr → State → Host.Outcome State Fault Refusal} {s t : State} {w : Word} {i : Instr}
    (h : s.fault = none) (hw : fetch s = .ok w) (hd : decodeWord w = .ok i) (hx : ex i s = .next t) :
    cycle ex s = .next (endCycle t) := by
  simp only [cycle, h, hw, decodeStep_eq, hd, hx]

/-! ### The relation -/

theorem sameButDeadStack_stack {s : State} {entries : Vector Word 16}
    (h : ∀ k : Fin 16, k.val < s.sp.val → entries[k.val] = s.stack[k.val]) :
    sameButDeadStack s { s with stack := entries } :=
  ⟨rfl, h⟩

/-- The second of two related states is the first with its stack entries replaced. -/
theorem sameButDeadStack_cases {s s' : State} (h : sameButDeadStack s s') :
    ∃ entries : Vector Word 16, s' = { s with stack := entries } ∧
      ∀ k : Fin 16, k.val < s.sp.val → entries[k.val] = s.stack[k.val] :=
  ⟨s'.stack, h.1, h.2⟩

/-- The fault entry and the timers read and write no stack entry. -/
theorem sameButDeadStack_takeFault {s s' : State} (f : Fault) (h : sameButDeadStack s s') :
    sameButDeadStack (takeFault s f) (takeFault s' f) := by
  obtain ⟨entries, rfl, hlive⟩ := sameButDeadStack_cases h
  exact sameButDeadStack_stack (s := takeFault s f) hlive

theorem sameButDeadStack_endCycle {s s' : State} (h : sameButDeadStack s s') :
    sameButDeadStack (endCycle s) (endCycle s') := by
  obtain ⟨entries, rfl, hlive⟩ := sameButDeadStack_cases h
  by_cases hf : s.fault = none
  · rw [endCycle_committed hf, endCycle_committed (t := { s with stack := entries }) hf]
    exact sameButDeadStack_stack (s := timerTick s) hlive
  · rw [endCycle_faulted hf, endCycle_faulted (t := { s with stack := entries }) hf]
    exact sameButDeadStack_stack hlive

/-! ### Instructions and steps -/

/-- RET pops a live entry, on which the two stacks agree. -/
theorem exec_ret_sameButDeadStack {s s' : State} (h : sameButDeadStack s s') :
    ∃ t t', exec .ret s = .next t ∧ exec .ret s' = .next t' ∧ sameButDeadStack t t' := by
  obtain ⟨entries, rfl, hlive⟩ := sameButDeadStack_cases h
  rcases Nat.eq_zero_or_pos s.sp.val with h0 | hp
  · exact ⟨_, _, exec_ret_empty h0, exec_ret_empty (s := { s with stack := entries }) h0,
      sameButDeadStack_takeFault _ h⟩
  · have htop : entries[s.sp.val - 1] = s.stack[s.sp.val - 1] :=
      hlive ⟨s.sp.val - 1, by omega⟩ (Nat.sub_lt hp one_pos)
    refine ⟨_, _, exec_ret_ok hp, exec_ret_ok (s := { s with stack := entries }) hp, ?_⟩
    simp only [htop]
    exact ⟨rfl, fun k hk => hlive k (lt_of_lt_of_le hk (Nat.sub_le _ _))⟩

/-- CALL writes the one entry that it makes live. -/
theorem exec_call_sameButDeadStack (nnn : Addr12) {s s' : State} (h : sameButDeadStack s s') :
    ∃ t t', exec (.call nnn) s = .next t ∧ exec (.call nnn) s' = .next t' ∧ sameButDeadStack t t' := by
  obtain ⟨entries, rfl, hlive⟩ := sameButDeadStack_cases h
  rcases Nat.lt_or_ge s.sp.val 16 with hlt | hge
  · refine ⟨_, _, exec_call_ok nnn hlt, exec_call_ok nnn (s := { s with stack := entries }) hlt, rfl,
      fun k hk => ?_⟩
    simp only [Vector.getElem_set]
    split
    · rfl
    · next hne => exact hlive k (by simp only at hk; omega)
  · exact ⟨_, _, exec_call_full nnn hge, exec_call_full nnn (s := { s with stack := entries }) hge,
      sameButDeadStack_takeFault _ h⟩

/-- No instruction can tell dead entries: those that do not write the stack do not read it either. -/
theorem exec_sameButDeadStack (i : Instr) {s s' : State} (h : sameButDeadStack s s') :
    ∃ t t', exec i s = .next t ∧ exec i s' = .next t' ∧ sameButDeadStack t t' := by
  by_cases hw : Part.stack ∈ partsWritten i
  · cases i
    case ret => exact exec_ret_sameButDeadStack h
    case call nnn => exact exec_call_sameButDeadStack nnn h
    all_goals simp [partsWritten] at hw
  · obtain ⟨entries, rfl, hlive⟩ := sameButDeadStack_cases h
    obtain ⟨t, ht⟩ := exec_isNext i s
    have ht' : exec i { s with stack := entries } = .next { t with stack := entries } := by
      have := exec_apply (c := .stack entries) s hw nofun
      rwa [ht] at this
    obtain ⟨hsp, hstack⟩ : t.sp = s.sp ∧ t.stack = s.stack := instructionsWriteOnlyTheirParts i s t ht .stack hw
    refine ⟨t, _, ht, ht', sameButDeadStack_stack ?_⟩
    rwa [hsp, hstack]

/-- Settles O56: the fetch and the decode read no stack entry, so the two cycles end in the same way. -/
theorem deadStackEntriesAreUnobservable : Obligations.DeadStackEntriesAreUnobservable := by
  intro s s' h
  obtain ⟨entries, rfl, _⟩ := sameButDeadStack_cases h
  rcases cycle_cases exec s with ⟨h1, e⟩ | ⟨h1, f, hf, e⟩ | ⟨h1, w, f, hw, hd, e⟩ | ⟨h1, w, i, hw, hd, _⟩
  · exact ⟨s, _, e, cycle_halted (s := { s with stack := entries }) h1, h⟩
  · exact ⟨_, _, e, cycle_fetch_error (s := { s with stack := entries }) h1 hf, sameButDeadStack_takeFault f h⟩
  · exact ⟨_, _, e, cycle_decode_error (s := { s with stack := entries }) h1 hw hd, sameButDeadStack_takeFault f h⟩
  · obtain ⟨t, t', ht, ht', hsame⟩ := exec_sameButDeadStack i h
    exact ⟨_, _, cycle_exec h1 hw hd ht, cycle_exec (s := { s with stack := entries }) h1 hw hd ht',
      sameButDeadStack_endCycle hsame⟩

end Sys2Proof.Machine

/-! PROOF. The fetch past the memory (spec/20_memory.md R64, D34). -/

namespace Sys2Proof.Machine

/-- A fetch with no second byte in the memory raises the fault of the first address out of range. -/
theorem fetch_past_memory {s : State} (h : 0xFFF < s.pc.toNat + 1) :
    fetch s = .error (.memory (if 0xFFF < s.pc.toNat then s.pc.toNat else s.pc.toNat + 1) .fetch s.pc) := by
  rcases fetch_cases s with ⟨hin, _⟩ | ⟨_, hf⟩
  · exact absurd h (Nat.not_lt.mpr hin)
  · exact hf

/-- Settles O5: the fetch raises the fault, and the cycle ends with its entry, which writes the record and BEEP alone. -/
theorem fetchPastMemoryFaults : Obligations.FetchPastMemoryFaults :=
  fun _ hfault hpc => cycle_fetch_error hfault (fetch_past_memory hpc)

end Sys2Proof.Machine

/-! PROOF. The decoder and the encoder are inverse to each other on the well-formed instructions, and a word with no
instruction decodes to the condition that carries it (spec/30_encoding.md R81, R84 to R91, R94). -/

namespace Sys2Proof

/-! ### The decoder undoes the encoder -/

/-- A word of family 0 that is neither CLS nor RET is SYS (R86). -/
theorem decodeFamily0_sys {w : Word} (hcls : w ≠ 0x00E0) (hret : w ≠ 0x00EE) :
    decodeFamily0 w = .ok (.sys (fieldNNN w)) := by
  unfold decodeFamily0
  rw [if_neg hcls, if_neg hret]

theorem formNNN_inj (f : Nibble) (nnn k : Addr12) : formNNN f nnn = formNNN f k ↔ nnn = k :=
  ⟨fun h => by simpa using congrArg fieldNNN h, fun h => h ▸ rfl⟩

/-- The operands that `wellFormed` takes from SYS are those whose words are CLS and RET (R86). -/
theorem wellFormed_sys_iff (nnn : Addr12) :
    (Instr.sys nnn).wellFormed = true ↔ encode (.sys nnn) ≠ 0x00E0 ∧ encode (.sys nnn) ≠ 0x00EE := by
  simp only [encode, show (0x00E0 : Word) = formNNN 0x0 0x0E0 from rfl,
    show (0x00EE : Word) = formNNN 0x0 0x0EE from rfl, ne_eq, formNNN_inj]
  simp [Instr.wellFormed]

/-- The family and, where there is one, the low digit or byte of an instruction's word select its own line of the
decoder, whose fields are the operands the layout placed (R81, R85). -/
theorem decodeWord_encode {i : Instr} (h : i.wellFormed = true) : decodeWord (encode i) = .ok i := by
  cases i
  case sys nnn =>
    obtain ⟨hcls, hret⟩ := (wellFormed_sys_iff nnn).mp h
    calc decodeWord (encode (.sys nnn)) = decodeFamily0 (encode (.sys nnn)) := by simp [decodeWord, encode]
      _ = .ok (.sys (fieldNNN (encode (.sys nnn)))) := decodeFamily0_sys hcls hret
      _ = .ok (.sys nnn) := by simp [encode]
  case cls | ret => rfl
  case jp | call | ldI | jpV0 | seImm | sneImm | ldImm | addImm | rnd | drw => simp [encode, decodeWord]
  case seReg => simp [encode, decodeWord, decodeFamily5]
  case sneReg => simp [encode, decodeWord, decodeFamily9]
  case ldReg | orReg | andReg | xorReg | addReg | subReg | shr | subn | shl =>
    simp [encode, decodeWord, decodeFamily8]
  case skp | sknp => simp [encode, decodeWord, decodeFamilyE]
  case ldVxDt | ldVxK | ldDtVx | ldStVx | addI | ldF | ldB | dump | load =>
    simp [encode, decodeWord, decodeFamilyF]

/-- Settles O15: the byte decoder reads the two bytes as the word they came from. -/
theorem decodeOfEncodeIsTheInstruction : Obligations.DecodeOfEncodeIsTheInstruction := by
  intro i h
  refine ⟨decodeWord_encode h, ?_⟩
  rw [encodeBytes, Machine.decode_bytes, decodeWord_encode h]
  rfl

/-! ### The encoder undoes the decoder -/

/-- An answer that the decoder may give for `w`: an instruction whose word is `w`, or the condition that carries `w`. -/
def AnswersFor (w : Word) (r : Except DecodeError Instr) : Prop :=
  (∃ i, r = .ok i ∧ i.wellFormed = true ∧ encode i = w) ∨ r = .error (.unrecognized w)

theorem answersFor_ok {w : Word} {i : Instr} (hwf : i.wellFormed = true) (hw : encode i = w) :
    AnswersFor w (.ok i) := .inl ⟨i, rfl, hwf, hw⟩

theorem answersFor_unrecognized (w : Word) : AnswersFor w (.error (.unrecognized w)) := .inr rfl

theorem answersFor_ite {w : Word} {c : Prop} [Decidable c] {i : Instr} (hwf : i.wellFormed = true)
    (hw : c → encode i = w) : AnswersFor w (if c then .ok i else .error (.unrecognized w)) := by
  split
  next hc => exact answersFor_ok hwf (hw hc)
  next => exact answersFor_unrecognized w

theorem formNNN_eq {w : Word} {f : Nibble} (hf : fieldF w = f) : formNNN f (fieldNNN w) = w :=
  hf ▸ formNNN_fields w

theorem formXNN_eq {w : Word} {f : Nibble} (hf : fieldF w = f) : formXNN f (fieldX w) (fieldNN w) = w :=
  hf ▸ formXNN_fields w

theorem formXYN_eq {w : Word} {f : Nibble} (hf : fieldF w = f) :
    formXYN f (fieldX w) (fieldY w) (fieldN w) = w :=
  hf ▸ formXYN_fields w

/-- The layout with a fixed low byte (R88, R89). -/
theorem formXNN_eq_of_NN {w : Word} {f : Nibble} {nn : Byte} (hf : fieldF w = f)
    (hnn : (fieldNN w).toNat = nn.toNat) : formXNN f (fieldX w) nn = w :=
  BitVec.eq_of_toNat_eq hnn ▸ formXNN_eq hf

/-- The layout with a fixed low digit (R87, R90). -/
theorem formXYN_eq_of_N {w : Word} {f n : Nibble} (hf : fieldF w = f)
    (hn : (fieldN w).toNat = n.toNat) : formXYN f (fieldX w) (fieldY w) n = w :=
  BitVec.eq_of_toNat_eq hn ▸ formXYN_eq hf

theorem decodeFamily0_answersFor {w : Word} (hf : fieldF w = 0x0) : AnswersFor w (decodeFamily0 w) := by
  by_cases hcls : w = 0x00E0
  · exact hcls ▸ answersFor_ok (i := .cls) rfl rfl
  · by_cases hret : w = 0x00EE
    · exact hret ▸ answersFor_ok (i := .ret) rfl rfl
    · have hw : encode (.sys (fieldNNN w)) = w := formNNN_eq hf
      rw [decodeFamily0_sys hcls hret]
      exact answersFor_ok ((wellFormed_sys_iff _).mpr (by rw [hw]; exact ⟨hcls, hret⟩)) hw

theorem decodeFamily5_answersFor {w : Word} (hf : fieldF w = 0x5) : AnswersFor w (decodeFamily5 w) :=
  answersFor_ite rfl fun hn => formXYN_eq_of_N hf (congrArg BitVec.toNat hn)

theorem decodeFamily9_answersFor {w : Word} (hf : fieldF w = 0x9) : AnswersFor w (decodeFamily9 w) :=
  answersFor_ite rfl fun hn => formXYN_eq_of_N hf (congrArg BitVec.toNat hn)

theorem decodeFamily8_answersFor {w : Word} (hf : fieldF w = 0x8) : AnswersFor w (decodeFamily8 w) := by
  unfold decodeFamily8
  split
  case h_10 => exact answersFor_unrecognized w
  all_goals exact answersFor_ok rfl (formXYN_eq_of_N hf ‹_›)

theorem decodeFamilyE_answersFor {w : Word} (hf : fieldF w = 0xE) : AnswersFor w (decodeFamilyE w) := by
  unfold decodeFamilyE
  split
  case h_3 => exact answersFor_unrecognized w
  all_goals exact answersFor_ok rfl (formXNN_eq_of_NN hf ‹_›)

theorem decodeFamilyF_answersFor {w : Word} (hf : fieldF w = 0xF) : AnswersFor w (decodeFamilyF w) := by
  unfold decodeFamilyF
  split
  case h_10 => exact answersFor_unrecognized w
  all_goals exact answersFor_ok rfl (formXNN_eq_of_NN hf ‹_›)

/-- The lines of `decodeWord` that name an instruction themselves, by layout, and then the families with a table of
their own. The last of them is family 0xF, the value left over. -/
theorem decodeWord_answersFor (w : Word) : AnswersFor w (decodeWord w) := by
  unfold decodeWord
  split
  case h_2 h | h_3 h | h_11 h | h_12 h => exact answersFor_ok rfl (formNNN_eq (BitVec.eq_of_toNat_eq h))
  case h_4 h | h_5 h | h_7 h | h_8 h | h_13 h => exact answersFor_ok rfl (formXNN_eq (BitVec.eq_of_toNat_eq h))
  case h_14 h => exact answersFor_ok rfl (formXYN_eq (BitVec.eq_of_toNat_eq h))
  case h_1 h => exact decodeFamily0_answersFor (BitVec.eq_of_toNat_eq h)
  case h_6 h => exact decodeFamily5_answersFor (BitVec.eq_of_toNat_eq h)
  case h_9 h => exact decodeFamily8_answersFor (BitVec.eq_of_toNat_eq h)
  case h_10 h => exact decodeFamily9_answersFor (BitVec.eq_of_toNat_eq h)
  case h_15 h => exact decodeFamilyE_answersFor (BitVec.eq_of_toNat_eq h)
  case h_16 =>
    have hF : (fieldF w).toNat = 0xF := by
      have := (fieldF w).isLt
      simp only [imp_false] at *
      omega
    exact decodeFamilyF_answersFor (BitVec.eq_of_toNat_eq hF)

/-- Settles O16: an instruction with the word `w` is what `w` decodes to, so there is one at most, and none where the
decoder answers the condition. -/
theorem everyWordIsOneInstructionOrUnrecognized : Obligations.EveryWordIsOneInstructionOrUnrecognized := by
  intro w
  have hdecodes : ∀ j : Instr, j.wellFormed = true → encode j = w → decodeWord w = .ok j :=
    fun j hj hw => hw ▸ decodeWord_encode hj
  rcases decodeWord_answersFor w with ⟨i, hi, hwf, hw⟩ | herr
  · exact .inl ⟨i, hi, hwf, hw, fun j hj hjw => Except.ok.inj ((hdecodes j hj hjw).symm.trans hi)⟩
  · refine .inr ⟨herr, fun j hj hjw => ?_⟩
    have := (hdecodes j hj hjw).symm.trans herr
    contradiction

/-! ### Words of the test vectors (spec/95_test_vectors.md 2.1, spec/30_encoding.md R95) -/

/-- Settles O18: closed facts, evaluated. -/
theorem listedWordsDecodeAsTheSpecSays : Obligations.ListedWordsDecodeAsTheSpecSays := by
  unfold Obligations.ListedWordsDecodeAsTheSpecSays
  decide

end Sys2Proof

/-! PROOF. How PC moves: the jumps, the four register skips and CALL with their whole frames, then every instruction
that does not set PC absolutely (spec/40_control_flow.md R110, R113 to R119, spec/44_timers_keypad.md R211 to R214). -/

namespace Sys2Proof.Machine

/-! ### Jumps and CALL -/

/-- Settles O21. -/
theorem jumpSetsPc : Obligations.JumpSetsPc :=
  fun nnn s => ⟨_, rfl, zext16_toNat nnn, changesOnly_goto s _⟩

/-- Settles O26: the sum stays below 2 ^ 16, so PC holds it exactly. -/
theorem jumpWithOffsetAddsV0 : Obligations.JumpWithOffsetAddsV0 :=
  fun nnn s => ⟨_, rfl, offsetTarget_toNat nnn (s.reg 0), changesOnly_goto s _⟩

/-- Settles O22: the two heights of the stack. The push writes the entry at SP and no other. -/
theorem callPushesItsOwnAddress : Obligations.CallPushesItsOwnAddress := by
  intro nnn s
  constructor
  · intro hfree
    refine ⟨_, exec_call_ok nnn hfree, zext16_toNat nnn, rfl, Vector.getElem_set_self _, fun k hk => ?_,
      changesOnly_pc_stack s _ _ _⟩
    exact Vector.getElem_set_ne hfree k.isLt hk.symm
  · intro hfull
    exact ⟨_, exec_call_full nnn hfull.ge, takeFault_fault s _⟩

/-! ### Skips -/

/-- The two distances of a skip (R110). -/
theorem State.skipIf_pc_cases (s : State) (c : Bool) : (s.skipIf c).pc = s.pc + 2 ∨ (s.skipIf c).pc = s.pc + 4 := by
  cases c
  · exact .inl rfl
  · exact .inr rfl

/-- An instruction that ends as the skip on `c` skips exactly when the condition that `c` decides holds. -/
theorem skipsWhen_of_skipIf {i : Instr} {s : State} {c : Bool} {p : Prop} (h : exec i s = .next (s.skipIf c))
    (hc : c = true ↔ p) : skipsWhen i s p :=
  ⟨_, h, fun hp => if_pos (hc.mpr hp), fun hp => if_neg (mt hc.mp hp), changesOnly_goto s _⟩

/-- Settles O24. -/
theorem skipIfEqualsImmediate : Obligations.SkipIfEqualsImmediate :=
  fun _ _ _ => skipsWhen_of_skipIf rfl beq_iff_eq

/-- Settles O25. -/
theorem otherSkipsFollowTheirConditions : Obligations.OtherSkipsFollowTheirConditions :=
  fun _ _ _ _ =>
    ⟨skipsWhen_of_skipIf rfl bne_iff_ne, skipsWhen_of_skipIf rfl beq_iff_eq, skipsWhen_of_skipIf rfl bne_iff_ne⟩

/-! ### All instructions -/

/-- A raising instruction that records no fault has committed one of its working copies. -/
theorem complete_map_committed {α : Type} {s t : State} {r : Except Fault α} {g : α → State}
    (h : complete s (r.map g) = .next t) (ht : t.fault = none) : ∃ a, t = g a := by
  rcases complete_map_cases h with ⟨a, _, hta⟩ | ⟨f, _, rfl⟩
  · exact ⟨a, hta⟩
  · rw [takeFault_fault] at ht
    contradiction

/-- Settles O27, an instruction at a time: six skip, FX0A advances or waits, the other ones advance. -/
theorem pcMovesByTwoFourOrAbsolutely : Obligations.PcMovesByTwoFourOrAbsolutely := by
  intro i s t h _ ht hret habs
  cases i
  case ret => exact absurd rfl hret
  case jp nnn => exact absurd rfl (habs nnn).1
  case call nnn => exact absurd rfl (habs nnn).2.1
  case jpV0 nnn => exact absurd rfl (habs nnn).2.2
  case seImm x nn | sneImm x nn =>
    cases h
    exact (s.skipIf_pc_cases _).imp_right fun h4 => .inl ⟨h4, x, 0, nn, by simp⟩
  case seReg x y | sneReg x y =>
    cases h
    exact (s.skipIf_pc_cases _).imp_right fun h4 => .inl ⟨h4, x, y, 0, by simp⟩
  case skp x | sknp x =>
    obtain ⟨k, rfl⟩ := complete_map_committed h ht
    exact (s.skipIf_pc_cases _).imp_right fun h4 => .inl ⟨h4, x, 0, 0, by simp⟩
  case ldVxK x =>
    obtain ⟨k, rfl⟩ := complete_map_committed h ht
    split
    · exact .inl s.next_pc
    · exact .inr (.inr ⟨s.goto_pc s.pc, x, rfl⟩)
  case drw | ldB | dump | load =>
    obtain ⟨_, rfl⟩ := complete_map_committed h ht
    exact .inl rfl
  all_goals
    cases h
    exact .inl rfl

end Sys2Proof.Machine

/-! PROOF. The ALU: one rule for the instructions that write a register, one for those that write a register and then
the flag, and each instruction as a case of them (spec/41_alu.md R141 to R152, D6 to D9). -/

namespace Sys2Proof.Machine

/-! ### One rule for each shape -/

/-- An instruction that ends as one register write and the advance. -/
theorem setsOnlyReg_of_setReg {i : Instr} {s : State} {x : Reg} {b : Byte}
    (h : exec i s = .next (s.setReg x b).next) : setsOnlyReg i s x b :=
  ⟨_, h, s.reg_setReg_same x b, fun _ hr => s.reg_setReg_other b hr, rfl, changesOnly_setReg_goto s x b _⟩

theorem reg_arithOp_dest {x : Reg} (b : Byte) (flag : Bool) (s : State) (hx : x ≠ vf) :
    (arithOp x b flag s).reg x = b := by
  simp [arithOp, State.setFlag, hx]

theorem reg_arithOp_vf (x : Reg) (b : Byte) (flag : Bool) (s : State) :
    (arithOp x b flag s).reg vf = flagByte flag :=
  (s.setReg x b).reg_setReg_same vf (flagByte flag)

/-- An instruction that ends as the register write followed by the flag write (D6). -/
theorem setsRegThenFlag_of_arithOp {i : Instr} {s : State} {x : Reg} {b : Byte} {flag : Bool}
    (h : exec i s = .next (arithOp x b flag s)) : setsRegThenFlag i s x b flag :=
  ⟨_, h, reg_arithOp_dest b flag s, reg_arithOp_vf x b flag s, fun _ => reg_arithOp_other b flag s, rfl,
    changesOnly_setReg_setReg_goto s x vf _ _ _⟩

/-! ### Loads, ADD, the logic instructions and RND -/

/-- Settles O28. -/
theorem loadImmediateSetsRegister : Obligations.LoadImmediateSetsRegister :=
  fun _ _ _ => setsOnlyReg_of_setReg rfl

/-- Settles O29. -/
theorem addImmediateWrapsWithoutFlag : Obligations.AddImmediateWrapsWithoutFlag := by
  intro x nn s
  rw [ofNat_mod_256]
  exact setsOnlyReg_of_setReg rfl

/-- Settles O30: by default the logic instructions write no flag (D9), and the word operations act bit by bit. -/
theorem copyAndLogicSetOnlyTheDestination : Obligations.CopyAndLogicSetOnlyTheDestination :=
  fun _ _ _ =>
    ⟨setsOnlyReg_of_setReg rfl, ⟨_, setsOnlyReg_of_setReg rfl, fun _ => BitVec.getLsbD_or⟩,
      ⟨_, setsOnlyReg_of_setReg rfl, fun _ => BitVec.getLsbD_and⟩,
      ⟨_, setsOnlyReg_of_setReg rfl, fun _ => BitVec.getLsbD_xor⟩⟩

/-- Settles O31. -/
theorem addSetsCarry : Obligations.AddSetsCarry := by
  intro x y s
  rw [ofNat_mod_256]
  exact setsRegThenFlag_of_arithOp rfl

/-- The mathematical modulo of R140, without leaving the natural numbers. -/
theorem ofNat_sub_mod_256 (a b : Byte) : BitVec.ofNat 8 ((256 + a.toNat - b.toNat) % 256) = subMod a b := by
  rw [subMod_eq, ofNat_mod_256]
  bv_omega

/-- Settles O32. -/
theorem subtractionsSetNoBorrow : Obligations.SubtractionsSetNoBorrow := by
  intro x y s
  rw [ofNat_sub_mod_256, ofNat_sub_mod_256]
  exact ⟨setsRegThenFlag_of_arithOp rfl, setsRegThenFlag_of_arithOp rfl⟩

/-- Settles O34: the register holds the masked draw, whose bits outside the mask are 0. -/
theorem randomByteIsMasked : Obligations.RandomByteIsMasked := by
  intro x nn s
  have hreg : (s.setReg x (s.rand8 &&& nn)).countDraw.next.reg x = s.rand8 &&& nn := s.reg_setReg_same x _
  refine ⟨_, rfl, hreg, ?_, fun _ hr => s.reg_setReg_other _ hr, rfl, rfl,
    instructionsWriteOnlyTheirParts (.rnd x nn) s _ rfl⟩
  rw [hreg, BitVec.and_assoc, BitVec.and_not_self]
  exact BitVec.and_zero

/-! ### The shifts -/

/-- SHIFT_SOURCE = Vx, X not F: the flag write does not touch V[X], so the order of the two writes does not show. -/
theorem shiftOp_vx_eq_arithOp {x : Reg} (out : Byte → Bool) (shift : Byte → Byte) (y : Reg) (s : State)
    (hx : x ≠ vf) : shiftOp .vx out shift x y s = arithOp x (shift (s.reg x)) (out (s.reg x)) s := by
  simp only [shiftOp, arithOp, State.setFlag, State.reg_setReg_other s _ hx, s.setReg_comm _ _ hx.symm]

/-- SHIFT_SOURCE = Vx, X = F: the flag is written first and then shifted (D8). -/
theorem shiftOp_vx_vf (out : Byte → Bool) (shift : Byte → Byte) (y : Reg) (s : State) :
    shiftOp .vx out shift vf y s = (s.setReg vf (shift (flagByte (out (s.reg vf))))).next := by
  simp only [shiftOp, State.setFlag, State.reg_setReg_same, State.setReg_setReg]

theorem shiftRight_flagByte (f : Bool) : shiftRight (flagByte f) = 0 := by
  cases f <;> rfl

theorem shiftLeft_flagByte (f : Bool) : shiftLeft (flagByte f) = if f = true then 2 else 0 := by
  cases f <;> rfl

theorem exec_shr {x : Reg} (y : Reg) (s : State) (hx : x ≠ vf) :
    exec (.shr x y) s = .next (arithOp x (shiftRight (s.reg x)) (shiftedOutRight (s.reg x)) s) :=
  congrArg Host.Outcome.next (shiftOp_vx_eq_arithOp _ _ y s hx)

theorem exec_shl {x : Reg} (y : Reg) (s : State) (hx : x ≠ vf) :
    exec (.shl x y) s = .next (arithOp x (shiftLeft (s.reg x)) (shiftedOutLeft (s.reg x)) s) :=
  congrArg Host.Outcome.next (shiftOp_vx_eq_arithOp _ _ y s hx)

theorem exec_shr_vf (y : Reg) (s : State) : exec (.shr vf y) s = .next (s.setReg vf 0).next := by
  have h := shiftOp_vx_vf shiftedOutRight shiftRight y s
  rw [shiftRight_flagByte] at h
  exact congrArg Host.Outcome.next h

theorem exec_shl_vf (y : Reg) (s : State) :
    exec (.shl vf y) s = .next (s.setReg vf (if 128 ≤ (s.reg vf).toNat then 2 else 0)).next := by
  have h := shiftOp_vx_vf shiftedOutLeft shiftLeft y s
  simp only [shiftLeft_flagByte, shiftedOutLeft_eq, decide_eq_true_eq] at h
  exact congrArg Host.Outcome.next h

/-- Settles O33: X not F, where the shift ends as ADD and SUB do, and X = F, where only the flag is written. -/
theorem shiftsMoveTheBitIntoVf : Obligations.ShiftsMoveTheBitIntoVf := by
  intro x y s
  simp only [ofNat_mod_256, ge_iff_le, ← shiftedOutRight_eq, ← shiftedOutLeft_eq]
  exact ⟨fun hx => ⟨setsRegThenFlag_of_arithOp (exec_shr y s hx), setsRegThenFlag_of_arithOp (exec_shl y s hx)⟩,
    setsOnlyReg_of_setReg (exec_shr_vf y s), setsOnlyReg_of_setReg (exec_shl_vf y s)⟩

/-! ### The alternative parameters -/

/-- LOGIC_CLEARS_VF = true: the result, and VF cleared last (D9). -/
theorem reg_logicOp_clears {clears : Bool} (h : clears = true) (x : Reg) (b : Byte) (s : State) :
    (logicOp clears x b s).reg vf = 0 ∧ (x ≠ vf → (logicOp clears x b s).reg x = b) := by
  subst h
  exact ⟨State.reg_setReg_same _ vf 0, fun hx => by simp [logicOp, hx]⟩

/-- SHIFT_SOURCE = Vy: the destination and the flag both come from V[Y] as it was, the destination written last (D7,
C9). -/
theorem reg_shiftOp_vy {source : ShiftSource} (h : source = .vy) (out : Byte → Bool) (shift : Byte → Byte)
    (x y : Reg) (s : State) :
    (shiftOp source out shift x y s).reg x = shift (s.reg y) ∧
      (x ≠ vf → (shiftOp source out shift x y s).reg vf = flagByte (out (s.reg y))) := by
  subst h
  exact ⟨State.reg_setReg_same _ x _, fun hx => by simp [shiftOp, State.setFlag, hx.symm]⟩

theorem shiftRight_toNat (b : Byte) : (shiftRight b).toNat = b.toNat / 2 := by
  unfold shiftRight
  bv_omega

theorem shiftLeft_toNat (b : Byte) : (shiftLeft b).toNat = b.toNat * 2 % 256 :=
  BitVec.toNat_ofNat _ 8

theorem flagByte_decide_toNat (p : Prop) [Decidable p] : (flagByte (decide p)).toNat = if p then 1 else 0 := by
  by_cases h : p <;> simp [flagByte, h]

theorem flagByte_shiftedOutRight_toNat (b : Byte) : (flagByte (shiftedOutRight b)).toNat = b.toNat % 2 := by
  rw [shiftedOutRight_eq, flagByte_decide_toNat]
  split <;> omega

theorem flagByte_shiftedOutLeft_toNat (b : Byte) : (flagByte (shiftedOutLeft b)).toNat = b.toNat / 128 := by
  have hlt : b.toNat < 256 := b.isLt
  rw [shiftedOutLeft_eq, flagByte_decide_toNat]
  split <;> omega

/-- Settles O59: the three logic instructions, then the two shifts. -/
theorem alternativeAluParametersActAsDecided : Obligations.AlternativeAluParametersActAsDecided := by
  intro p x y s
  refine ⟨fun hp => ?_, fun hp => ⟨?_, ?_⟩⟩
  · exact ⟨⟨_, rfl, reg_logicOp_clears hp x _ s⟩, ⟨_, rfl, reg_logicOp_clears hp x _ s⟩,
      ⟨_, rfl, reg_logicOp_clears hp x _ s⟩⟩
  · obtain ⟨hdest, hflag⟩ := reg_shiftOp_vy hp shiftedOutRight shiftRight x y s
    exact ⟨_, rfl, by rw [hdest, shiftRight_toNat],
      fun hx => by rw [hflag hx, flagByte_shiftedOutRight_toNat]⟩
  · obtain ⟨hdest, hflag⟩ := reg_shiftOp_vy hp shiftedOutLeft shiftLeft x y s
    exact ⟨_, rfl, by rw [hdest, shiftLeft_toNat],
      fun hx => by rw [hflag hx, flagByte_shiftedOutLeft_toNat]⟩

end Sys2Proof.Machine

/-! PROOF. The index register and the memory instructions: one rule for each way a raising instruction ends, the
operations of FX33, FX55 and FX65 at data addresses, then each instruction (spec/42_index_memory.md R170 to R176,
spec/60_exceptions.md R236). -/

namespace Sys2Proof.Machine

/-! ### The two ends of a raising instruction -/

/-- An instruction whose operation raises takes that fault from the state it started in (R236). -/
theorem takesFault_of_error {α : Type} {i : Instr} {s : State} {f : Fault} {r : Except Fault α} {g : α → State}
    (hi : exec i s = complete s (r.map g)) (hr : r = .error f) : takesFault i s f := by
  rw [takesFault, hi, hr]
  rfl

/-- An instruction whose operation raises nothing commits the working copy. -/
theorem exec_of_ok {α : Type} {i : Instr} {s : State} {a : α} {r : Except Fault α} {g : α → State}
    (hi : exec i s = complete s (r.map g)) (hr : r = .ok a) : exec i s = .next (g a) := by
  rw [hi, hr]
  rfl

/-- The fault entry keeps memory, the registers and I. -/
theorem raisesMemoryFault_of_takesFault {i : Instr} {s : State} {a : Nat} {kind : AccessKind} {pc : Word}
    (h : takesFault i s (.memory a kind pc)) : raisesMemoryFault i s a :=
  ⟨_, h, ⟨kind, pc, rfl⟩, fun _ => rfl, fun _ => rfl, rfl⟩

/-- A committed change of I alone. -/
theorem changesOnly_setI_next (s : State) (w : Word) : changesOnly [.index, .pc] s (s.setI w).next :=
  (changesOnly_setI s w).trans (changesOnly_goto _ _)

/-! ### The faults of FX33, FX55 and FX65 -/

theorem takesFault_ldB (x : Reg) {s : State} (h : 0xFFF < dataAddr s.i 2) :
    takesFault (.ldB x) s (.memory (if 0xFFF < s.i.toNat then s.i.toNat else 0x1000) .write s.pc) := by
  have hpast : 0x1000 < dataAddr s.i 0 + (bcdDigits (s.reg x)).length := Nat.succ_lt_succ h
  exact takesFault_of_error rfl (memWriteAll_error (List.cons_ne_nil _ _) hpast)

theorem takesFault_dump {x : Reg} {s : State} (h : 0xFFF < dataAddr s.i x.val) :
    takesFault (.dump x) s (.memory (if 0xFFF < s.i.toNat then s.i.toNat else 0x1000) .write s.pc) :=
  takesFault_of_error rfl (dumpLoop_error x.isLt x.val.succ_pos (Nat.succ_lt_succ h))

theorem takesFault_load {x : Reg} {s : State} (h : 0xFFF < dataAddr s.i x.val) :
    takesFault (.load x) s (.memory (if 0xFFF < s.i.toNat then s.i.toNat else 0x1000) .read s.pc) :=
  takesFault_of_error rfl (loadLoop_error x.isLt x.val.succ_pos (Nat.succ_lt_succ h))

/-- Settles O40. -/
theorem memoryAndCallFaultsAreTaken : Obligations.MemoryAndCallFaultsAreTaken :=
  fun x nnn _ => ⟨takesFault_ldB x, fun h => ⟨takesFault_dump h, takesFault_load h⟩,
    fun hfull => exec_call_full nnn hfull.ge⟩

/-! ### The index register -/

/-- Settles O35. -/
theorem loadAndAddIndexSetI : Obligations.LoadAndAddIndexSetI :=
  fun nnn x s => ⟨⟨_, rfl, zext16_toNat nnn, rfl, changesOnly_setI_next s _⟩,
    ⟨_, rfl, indexPlus_toNat s.i (s.reg x), rfl, changesOnly_setI_next s _⟩⟩

/-- Settles O36: 255 * 5 is below 2 ^ 16, so I holds the product exactly. -/
theorem glyphAddressIsFiveTimesTheRegister : Obligations.GlyphAddressIsFiveTimesTheRegister :=
  fun x s => ⟨_, rfl, glyphAddr_toNat (s.reg x), rfl, changesOnly_setI_next s _⟩

/-! ### FX33 -/

/-- A run of byte writes in range, read at the address of one of them. -/
theorem memWriteAll_dataAddr {pc : Word} {m : Memory} {i : Word} {bs : List Byte}
    (h : dataAddr i bs.length ≤ 0x1000) :
    ∃ m', memWriteAll pc m (dataAddr i 0) bs = .ok m' ∧
      (∀ k (hk : k < bs.length), Memory.read m' (dataAddr i k) = bs[k]) ∧
      ∀ a, (∀ k < bs.length, a ≠ dataAddr i k) → Memory.read m' a = Memory.read m a := by
  obtain ⟨m', hw, hread⟩ := memWriteAll_ok (pc := pc) (m := m) h
  refine ⟨m', hw, fun k hk => ?_, fun a ha => ?_⟩
  · rw [hread, if_pos (by unfold dataAddr; omega)]
    simp [dataAddr, hk]
  · rw [hread, if_neg]
    rintro ⟨hle, hlt⟩
    simp only [dataAddr] at hle hlt ha
    exact ha (a - i.toNat) (by omega) (by omega)

/-- Settles O37: the run of three writes in range, and its fault out of range. -/
theorem bcdStoresThreeDigitsOrFaults : Obligations.BcdStoresThreeDigitsOrFaults := by
  intro x s
  refine ⟨fun h => ?_, fun h => raisesMemoryFault_of_takesFault (takesFault_ldB x h)⟩
  obtain ⟨m, hw, hin, hout⟩ := memWriteAll_dataAddr (pc := s.pc) (m := s.mem) (i := s.i) (bs := bcdDigits (s.reg x))
    (Nat.succ_le_succ h)
  have hb : (s.reg x).toNat < 256 := (s.reg x).isLt
  have hdigit {n : Nat} (hn : n < 10) : (BitVec.ofNat 8 n).toNat = n :=
    (BitVec.toNat_ofNat n 8).trans (Nat.mod_eq_of_lt (by omega))
  have hlen : (bcdDigits (s.reg x)).length = 3 := rfl
  refine ⟨_, exec_of_ok rfl hw, ?hundreds, ?tens, ?ones, fun a h0 h1 h2 => hout a fun k hk => ?others, rfl,
    (changesOnly_setMem s m).trans (changesOnly_goto _ _)⟩
  case hundreds => exact (congrArg BitVec.toNat (hin 0 (by omega))).trans (hdigit (by omega))
  case tens => exact (congrArg BitVec.toNat (hin 1 (by omega))).trans (hdigit (by omega))
  case ones => exact (congrArg BitVec.toNat (hin 2 (by omega))).trans (hdigit (by omega))
  case others =>
    match k, hk with
    | 0, _ => exact h0
    | 1, _ => exact h1
    | 2, _ => exact h2

/-! ### FX55 -/

/-- Settles O38: the dump loop run to X in range, and its fault out of range. -/
theorem dumpStoresRegistersOrFaults : Obligations.DumpStoresRegistersOrFaults := by
  intro x s
  refine ⟨fun h => ?_, fun h => raisesMemoryFault_of_takesFault (takesFault_dump h)⟩
  obtain ⟨m, i, hd, hi, hread⟩ := dumpLoop_ok (pc := s.pc) (v := s.v) (m := s.mem) x.isLt (Nat.succ_le_succ h)
  refine ⟨_, exec_of_ok rfl hd, fun r hr => ?_, fun a ha => ?_, hi, rfl,
    ((changesOnly_setMem s m).trans (changesOnly_setI _ i)).trans (changesOnly_goto _ _)⟩
  · have hin : s.i.toNat ≤ dataAddr s.i r.val ∧ dataAddr s.i r.val < s.i.toNat + (x.val + 1) := by
      unfold dataAddr; omega
    refine (hread _).trans ?_
    rw [if_pos hin]
    simp [dataAddr, State.reg]
  · have hout : ¬ (s.i.toNat ≤ a ∧ a < s.i.toNat + (x.val + 1)) := by unfold dataAddr at ha; omega
    exact (hread a).trans (if_neg hout)

/-! ### FX65 -/

/-- Settles O39: the load loop run to X in range, and its fault out of range. -/
theorem loadFillsRegistersOrFaults : Obligations.LoadFillsRegistersOrFaults := by
  intro x s
  refine ⟨fun h => ?_, fun h => raisesMemoryFault_of_takesFault (takesFault_load h)⟩
  obtain ⟨v, i, hl, hi, hregs⟩ := loadLoop_ok (pc := s.pc) (v := s.v) (m := s.mem) x.isLt (Nat.succ_le_succ h)
  refine ⟨_, exec_of_ok rfl hl, fun r => ?_, hi, rfl,
    ((changesOnly_setRegs s v).trans (changesOnly_setI _ i)).trans (changesOnly_goto _ _)⟩
  exact (hregs r).trans (if_congr Nat.lt_succ_iff rfl rfl)

end Sys2Proof.Machine

/-! PROOF. The display: CLS, a draw that raises nothing, and the first fault of one that cannot complete
(spec/43_display.md R190 to R194, spec/60_exceptions.md R236, R239). -/

namespace Sys2Proof.Machine

/-! ### CLS -/

theorem pixel_clearFb (px py : Nat) : pixel clearFb px py = false := by
  unfold pixel clearFb
  split
  · rw [Vector.getElem_replicate, Vector.getElem_replicate]
  · rfl

/-- Settles O42. -/
theorem clearScreenClearsEveryCell : Obligations.ClearScreenClearsEveryCell :=
  fun s => ⟨_, rfl, fun px py _ _ => pixel_clearFb px py, rfl, (changesOnly_setFb s _).trans (changesOnly_goto _ _)⟩

/-! ### The first failure of a loop -/

/-- A loop with a failing index has a first one. -/
theorem exists_first_failure {P : Nat → Prop} {n : Nat} (h : ¬ ∀ k, k < n → P k) :
    ∃ k, k < n ∧ (∀ j, j < k → P j) ∧ ¬ P k := by
  classical
  have hfails : ∃ k, k < n ∧ ¬ P k := by simpa using h
  obtain ⟨hk, hfail⟩ := Nat.find_spec hfails
  exact ⟨Nat.find hfails, hk, fun j hj => by_contra fun hP => Nat.find_min hfails hj ⟨hj.trans hk, hP⟩, hfail⟩

/-- A row that raises has its byte out of memory, or a first set bit off the grid (R192, R193). -/
theorem first_fault_of_not_rowDrawable {m : Memory} {base x0 y0 r cols : Nat}
    (h : ¬ rowDrawable m base x0 y0 r cols) :
    0xFFF < base + r ∨ ∃ c, c < cols ∧ rowDrawable m base x0 y0 r c ∧
      spriteBit (spriteByte m base r) c = true ∧ (63 < x0 + c ∨ 31 < y0 + r) := by
  rcases Nat.lt_or_ge 0xFFF (base + r) with hout | hin
  · exact .inl hout
  · obtain ⟨c, hc, hbefore, hoff⟩ := exists_first_failure fun hall => h ⟨hin, hall⟩
    obtain ⟨hbit, hgrid⟩ := Classical.not_imp.mp hoff
    exact .inr ⟨c, hc, ⟨hin, hbefore⟩, hbit, by omega⟩

/-! ### A draw that cannot complete -/

theorem takesFault_drw_memory {x y : Reg} {n : Nibble} {s : State} {r : Nat} (hr : r < n.toNat)
    (hrows : drawable s.mem s.i.toNat (s.reg x).toNat (s.reg y).toNat r) (hout : 0xFFF < s.i.toNat + r) :
    takesFault (.drw x y n) s (.memory (s.i.toNat + r) .read s.pc) :=
  takesFault_of_error rfl (drawRows_memory_error _ hr hrows hout)

theorem takesFault_drw_pixel {x y : Reg} {n : Nibble} {s : State} {r c : Nat} (hr : r < n.toNat)
    (hrows : drawable s.mem s.i.toNat (s.reg x).toNat (s.reg y).toNat r) (hc : c < 8)
    (hrow : rowDrawable s.mem s.i.toNat (s.reg x).toNat (s.reg y).toNat r c)
    (hbit : spriteBit (spriteByte s.mem s.i.toNat r) c = true)
    (hoff : 63 < (s.reg x).toNat + c ∨ 31 < (s.reg y).toNat + r) :
    takesFault (.drw x y n) s (.framebuffer ((s.reg x).toNat + c) ((s.reg y).toNat + r) s.pc) :=
  takesFault_of_error rfl (drawRows_pixel_error _ hr hrows hc hrow hbit hoff)

/-- Settles O44: the first row that raises, and in it its byte or its first set bit off the grid. -/
theorem drawReportsTheFirstFault : Obligations.DrawReportsTheFirstFault := by
  intro x y n s h
  obtain ⟨r, hr, hrows, hfail⟩ := exists_first_failure h
  refine ⟨r, hr, hrows, ?_⟩
  rcases first_fault_of_not_rowDrawable hfail with hout | ⟨c, hc, hrow, hbit, hoff⟩
  · exact .inl ⟨hout, takesFault_drw_memory hr hrows hout⟩
  · exact .inr ⟨c, hc, hrow, hbit, hoff, takesFault_drw_pixel hr hrows hc hrow hbit hoff⟩

/-! ### A draw that raises nothing -/

theorem flagByte_eq_zero_or_one (f : Bool) : flagByte f = 0 ∨ flagByte f = 1 := by
  cases f
  · exact .inl rfl
  · exact .inr rfl

theorem flagByte_eq_one (f : Bool) : flagByte f = 1 ↔ f = true := by
  cases f <;> decide

/-- The state DXYN commits when its working copy ends as `c`: the framebuffer, then VF, then the advance (R192). -/
def commitDraw (s : State) (c : Framebuffer × Bool) : State := ((s.setFb c.1).setFlag c.2).next

theorem reg_commitDraw_vf (s : State) (c : Framebuffer × Bool) : (commitDraw s c).reg vf = flagByte c.2 :=
  (s.setFb c.1).reg_setReg_same vf _

theorem reg_commitDraw_other (s : State) (c : Framebuffer × Bool) {r : Reg} (hr : r ≠ vf) :
    (commitDraw s c).reg r = s.reg r :=
  (s.setFb c.1).reg_setReg_other _ hr

theorem changesOnly_commitDraw (s : State) (c : Framebuffer × Bool) :
    changesOnly [.regs, .screen, .pc] s (commitDraw s c) :=
  ((changesOnly_setFb s _).trans (changesOnly_setReg_goto _ _ _ _)).mono (by decide)

/-- A drawable sprite is drawn on the framebuffer, VF starting at 0, and committed (R192, R194). -/
theorem exec_drw_ok {x y : Reg} {n : Nibble} {s : State}
    (h : drawable s.mem s.i.toNat (s.reg x).toNat (s.reg y).toNat n.toNat) :
    ∃ c, exec (.drw x y n) s = .next (commitDraw s c) ∧
      Drawn (covers s.mem s.i.toNat (s.reg x).toNat (s.reg y).toNat n.toNat) (s.fb, false) c := by
  obtain ⟨c, hc, hd⟩ := drawRows_ok (pc := s.pc) (s.fb, false) h
  exact ⟨c, exec_of_ok (g := commitDraw s) rfl hc, hd⟩

/-- Drawing with the flag at 0 leaves it 1 exactly if a drawn cell was 1 (R194). -/
theorem drawn_collision_iff {cover : Nat → Nat → Prop} {fb : Framebuffer} {c : Framebuffer × Bool}
    (h : Drawn cover (fb, false) c) : c.2 = true ↔ ∃ px py, cover px py ∧ pixel fb px py = true := by
  obtain ⟨_, _, hflag⟩ := h
  simpa using hflag

/-- Settles O43. -/
theorem drawInvertsTheCoveredCells : Obligations.DrawInvertsTheCoveredCells := by
  intro x y n s h
  obtain ⟨c, hexec, hdrawn⟩ := exec_drw_ok h
  have ⟨hinverted, hkept, _⟩ := hdrawn
  refine ⟨_, hexec, fun px py _ _ => hinverted px py, fun px py _ _ => hkept px py, ?_, ?_,
    fun _ => reg_commitDraw_other s c, rfl, changesOnly_commitDraw s c⟩
  · rw [reg_commitDraw_vf]
    exact flagByte_eq_zero_or_one c.2
  · rw [reg_commitDraw_vf, flagByte_eq_one]
    exact drawn_collision_iff hdrawn

end Sys2Proof.Machine

/-! PROOF. The keypad and the timers: a key index names its slot, FX0A waits or advances, and a cycle that takes no
fault ends with the timers, so what an instruction writes to one is counted down at once (spec/44_timers_keypad.md R211
to R217, spec/60_exceptions.md R250, R251). -/

namespace Sys2Proof.Machine

/-! ### Timer writes -/

/-- Settles O51. -/
theorem timerInstructionsMoveTheTimers : Obligations.TimerInstructionsMoveTheTimers :=
  fun _ s => ⟨setsOnlyReg_of_setReg rfl,
    ⟨_, rfl, rfl, rfl, (changesOnly_setDt s _).trans (changesOnly_goto _ _)⟩,
    ⟨_, rfl, rfl, rfl, (changesOnly_setSt s _).trans (changesOnly_goto _ _)⟩⟩

/-- A cycle whose instruction takes no fault ends with the timers (R40). -/
theorem step_of_exec_committed {s t : State} {i : Instr} (hfault : s.fault = none) (hpc : s.pc.toNat + 1 ≤ 0xFFF)
    (hword : decodeWord (wordOfBytes (Memory.read s.mem s.pc.toNat) (Memory.read s.mem (s.pc.toNat + 1))) = .ok i)
    (hexec : exec i s = .next t) (ht : t.fault = none) : step s = .next (timerTick t) := by
  rw [step_of_exec hfault hpc hword hexec, endCycle_committed ht]

/-- Settles O13: the timers run on the state in which FX15 or FX18 has already written its timer. -/
theorem writtenTimerCountsInTheSameCycle : Obligations.WrittenTimerCountsInTheSameCycle := by
  intro s t x hfault hpc hstep
  constructor
  · intro hword
    have hcycle : step s = .next (timerTick (s.setDt (s.reg x)).next) :=
      step_of_exec_committed hfault hpc hword rfl hfault
    cases hstep.symm.trans hcycle
    exact countDown_toNat (s.reg x)
  · intro hword
    have hcycle : step s = .next (timerTick (s.setSt (s.reg x)).next) :=
      step_of_exec_committed hfault hpc hword rfl hfault
    cases hstep.symm.trans hcycle
    exact ⟨countDown_toNat (s.reg x), beq_iff_eq⟩

/-! ### The key an index names -/

/-- An index up to 15 names the slot of that number. -/
theorem keySlot_of_toNat {b : Byte} {k : Fin 16} (pc : Word) (h : b.toNat = k.val) : keySlot pc b = .ok k := by
  rcases keySlot_cases pc b with ⟨_, hslot⟩ | ⟨hbig, _⟩
  · exact hslot.trans (congrArg _ (Fin.ext h))
  · omega

/-- Settles O48. -/
theorem keySkipsFollowTheKey : Obligations.KeySkipsFollowTheKey := by
  intro x k s hk
  have hslot := keySlot_of_toNat s.pc hk
  exact ⟨skipsWhen_of_skipIf (exec_of_ok (g := fun j => s.skipIf (s.key j)) rfl hslot) Iff.rfl,
    skipsWhen_of_skipIf (exec_of_ok (g := fun j => s.skipIf (!s.key j)) rfl hslot) (Bool.not_eq_true' _).to_iff⟩

/-! ### Waiting for a key -/

/-- FX0A, given a key index that names a slot: the advance, or a stay at its own PC (R214, D11). -/
theorem exec_ldVxK {x : Reg} {k : Fin 16} {s : State} (hk : (s.reg x).toNat = k.val) :
    exec (.ldVxK x) s = .next (if s.key k then s.next else s.goto s.pc) :=
  exec_of_ok (g := fun j => if s.key j then s.next else s.goto s.pc) rfl (keySlot_of_toNat s.pc hk)

theorem exec_ldVxK_pressed {x : Reg} {k : Fin 16} {s : State} (hk : (s.reg x).toNat = k.val) (hkey : s.key k = true) :
    exec (.ldVxK x) s = .next s.next := by
  rw [exec_ldVxK hk, if_pos hkey]

/-- A waiting FX0A leaves the whole state as it is. -/
theorem exec_ldVxK_released {x : Reg} {k : Fin 16} {s : State} (hk : (s.reg x).toNat = k.val)
    (hkey : s.key k = false) : exec (.ldVxK x) s = .next s := by
  rw [exec_ldVxK hk, hkey]
  rfl

/-- Settles O49. -/
theorem waitForKeyAdvancesOnlyWhenPressed : Obligations.WaitForKeyAdvancesOnlyWhenPressed := by
  intro x k s hk
  cases hkey : s.key k
  · exact ⟨s, exec_ldVxK_released hk hkey, nofun, fun _ => rfl, changesOnly_goto s s.pc⟩
  · exact ⟨s.next, exec_ldVxK_pressed hk hkey, fun _ => rfl, nofun, changesOnly_goto s _⟩

/-- Settles O14, by induction on the cycles. A cycle of the wait is one run of the timers, which FX0A does not read, so
the core still waits after it. -/
theorem keyWaitLastsWhileHostIsSilent : Obligations.KeyWaitLastsWhileHostIsSilent := by
  intro s x k hfault hpc hword hk hkey n
  induction n generalizing s with
  | zero => exact ⟨s, rfl, rfl, rfl, rfl⟩
  | succ n ih =>
    have hcycle : step s = .next (timerTick s) :=
      step_of_exec_committed hfault hpc hword (exec_ldVxK_released hk hkey) hfault
    obtain ⟨t, hrun, hframe, hdt, hst⟩ := ih (timerTick s) hfault hpc hword hk hkey
    rw [timerTick_dt, countDown_toNat] at hdt
    rw [timerTick_st, countDown_toNat] at hst
    exact ⟨t, (run_of_step n hcycle).trans hrun, hframe, by omega, by omega⟩

end Sys2Proof.Machine

/-! PROOF. The end of a committed cycle and two fault conditions: DT, ST and BEEP at its end, the fault entry of an
undecodable word, and that of a key index above 15 (spec/60_exceptions.md R231, R236, R238, R250, R251). -/

namespace Sys2Proof.Machine

/-! ### The timers of a committed cycle -/

/-- Settles O4: the cycle's end is the timers' run on the state its instruction left. -/
theorem delayTimerCountsDownEveryCommittedCycle : Obligations.DelayTimerCountsDownEveryCommittedCycle := by
  intro s t u i hfault hpc hword hexec hu hstep
  have hcycle : step s = .next (timerTick u) := step_of_exec_committed hfault hpc hword hexec hu
  cases hstep.symm.trans hcycle
  exact countDown_toNat u.dt

/-- ST is among the parts of FX18 alone (R30, R217). -/
theorem ldStVx_of_sound_mem_partsWritten {i : Instr} (h : Part.sound ∈ partsWritten i) : ∃ x, i = .ldStVx x := by
  cases i
  case ldStVx x => exact ⟨x, rfl⟩
  all_goals simp [partsWritten] at h

/-- Every instruction but FX18 hands the timers the ST its cycle began with. -/
theorem exec_st {i : Instr} {s t : State} (hi : ∀ x, i ≠ .ldStVx x) (h : exec i s = .next t) : t.st = s.st :=
  instructionsWriteOnlyTheirParts i s t h .sound fun hmem =>
    have ⟨x, hx⟩ := ldStVx_of_sound_mem_partsWritten hmem
    hi x hx

/-- Settles O12: a cycle that ends without a record has committed its instruction, and the timers then ran on the ST
that the cycle began with. -/
theorem beepExactlyWhenSoundTimerReachesOne : Obligations.BeepExactlyWhenSoundTimerReachesOne := by
  intro s t hs hstep ht hword
  rcases step_cases hstep with ⟨hHalted, _⟩ | ⟨_, f, rfl⟩ | ⟨_, _, i, u, hi, hu, _, rfl⟩
  · exact absurd hs hHalted
  · cases ht
  · have hst : u.st = s.st := exec_st (fun x hx => hword x (hx ▸ hi)) hu
    rw [timerTick_beep, timerTick_st, countDown_toNat, hst]
    exact ⟨beq_iff_eq, rfl⟩

/-! ### An undecodable word -/

/-- A fetch with both bytes in the memory reads them, high byte first (R63). -/
theorem fetch_in_memory {s : State} (h : s.pc.toNat + 1 ≤ 0xFFF) :
    fetch s = .ok (wordOfBytes (Memory.read s.mem s.pc.toNat) (Memory.read s.mem (s.pc.toNat + 1))) := by
  rcases fetch_cases s with ⟨_, hf⟩ | ⟨hout, _⟩
  · exact hf
  · exact absurd h (Nat.not_le.mpr hout)

/-- The decode step raises the fault of a word that is no instruction's (R231). -/
theorem decodeStep_undecodable (pc : Word) {w : Word} (h : ∀ i, decodeWord w ≠ .ok i) :
    decodeStep pc w = .error (.decode w pc) := by
  rw [decodeStep_eq]
  cases hw : decodeWord w with
  | ok i => exact absurd hw (h i)
  | error => rfl

/-- Settles O6: the fetch succeeds, the decode step raises, and the cycle ends with the fault entry. -/
theorem undecodableWordFaults : Obligations.UndecodableWordFaults := by
  intro s w hfault hpc hw hnone
  have hfetch : fetch s = .ok w := hw ▸ fetch_in_memory hpc
  exact cycle_decode_error hfault hfetch (decodeStep_undecodable s.pc hnone)

/-! ### A key index above 15 -/

/-- A byte above 15 names no key (R210, R238). -/
theorem keySlot_above_fifteen (pc : Word) {b : Byte} (h : 15 < b.toNat) : keySlot pc b = .error (.keypad b pc) := by
  rcases keySlot_cases pc b with ⟨hlt, _⟩ | ⟨_, hslot⟩
  · omega
  · exact hslot

/-- Settles O50: the three instructions look their key up before anything else. -/
theorem keyIndexAboveFifteenFaults : Obligations.KeyIndexAboveFifteenFaults := by
  intro x s h
  have hslot := keySlot_above_fifteen s.pc h
  exact ⟨takesFault_of_error rfl hslot, takesFault_of_error rfl hslot, takesFault_of_error rfl hslot⟩

end Sys2Proof.Machine

/-! PROOF. Steps and runs: a halted core stays as it is, every state has a next state, and a cycle is the fetched
instruction and then the timers (spec/10_state.md R40, spec/60_exceptions.md R236, R237, R250, R251). -/

namespace Sys2Proof.Machine

/-- Settles O7, by induction on the number of steps. -/
theorem haltedCoreNeverChanges : Obligations.HaltedCoreNeverChanges := by
  intro s n hs
  induction n with
  | zero => rfl
  | succ n ih => exact (run_of_step n (cycle_halted hs)).trans ih

/-- Settles O8: a halted core answers itself, the fetch and the decode answer the fault entry, and the instruction has
a next state, whose end of cycle is the answer. -/
theorem everyStepAnswersANextState : Obligations.EveryStepAnswersANextState := by
  intro s
  rcases cycle_cases exec s with ⟨_, e⟩ | ⟨_, _, _, e⟩ | ⟨_, _, _, _, _, e⟩ | ⟨_, _, i, _, _, e⟩
  · exact ⟨_, e⟩
  · exact ⟨_, e⟩
  · exact ⟨_, e⟩
  · obtain ⟨t, ht⟩ := exec_isNext i s
    rw [ht] at e
    exact ⟨endCycle t, e⟩

/-- Settles O3: a cycle whose instruction took a fault ends as that left it, any other ends with the timers. -/
theorem stepRunsTheFetchedInstruction : Obligations.StepRunsTheFetchedInstruction := by
  intro s i hfault hpc hword t hexec
  refine ⟨fun ht => step_of_exec_committed hfault hpc hword hexec ht, fun ht => ?_⟩
  rw [step_of_exec hfault hpc hword hexec, endCycle_faulted ht]

end Sys2Proof.Machine

/-! PROOF. The words that do not decode: first within each family that has some, then all (spec/30_encoding.md R86 to
R91). The low digit or byte and the listed values are compared as numbers. -/

namespace Sys2Proof

/-- Family 0 has no illegal word: what is not CLS or RET is SYS (R86). -/
theorem decodeFamily0_ne_error (w : Word) (e : DecodeError) : decodeFamily0 w ≠ .error e := by
  unfold decodeFamily0
  split
  · nofun
  · split <;> nofun

theorem ite_unrecognized_iff {w : Word} {c : Prop} [Decidable c] {i : Instr} :
    (if c then .ok i else .error (.unrecognized w) : Except DecodeError Instr) = .error (.unrecognized w) ↔ ¬ c := by
  split
  next hc => exact iff_of_false nofun (not_not_intro hc)
  next hc => exact iff_of_true rfl hc

theorem decodeFamily5_unrecognized_iff (w : Word) :
    decodeFamily5 w = .error (.unrecognized w) ↔ fieldN w ≠ 0 :=
  ite_unrecognized_iff

theorem decodeFamily9_unrecognized_iff (w : Word) :
    decodeFamily9 w = .error (.unrecognized w) ↔ fieldN w ≠ 0 :=
  ite_unrecognized_iff

theorem decodeFamily8_unrecognized_iff (w : Word) :
    decodeFamily8 w = .error (.unrecognized w) ↔
      fieldN w ∈ ([0x8, 0x9, 0xA, 0xB, 0xC, 0xD, 0xF] : List Nibble) := by
  unfold decodeFamily8
  simp only [List.mem_cons, List.not_mem_nil, or_false, ← BitVec.toNat_inj, BitVec.reduceToNat]
  split
  case h_10 =>
    have hlt : (fieldN w).toNat < 16 := (fieldN w).isLt
    refine iff_of_true rfl ?_
    simp only [imp_false] at *
    omega
  all_goals next hn => simp [hn]

theorem decodeFamilyE_unrecognized_iff (w : Word) :
    decodeFamilyE w = .error (.unrecognized w) ↔ fieldNN w ∉ ([0x9E, 0xA1] : List Byte) := by
  unfold decodeFamilyE
  simp only [List.mem_cons, List.not_mem_nil, or_false, ← BitVec.toNat_inj, BitVec.reduceToNat]
  split
  case h_3 hskp hsknp => exact iff_of_true rfl (not_or_intro hskp hsknp)
  all_goals next hnn => simp [hnn]

theorem decodeFamilyF_unrecognized_iff (w : Word) :
    decodeFamilyF w = .error (.unrecognized w) ↔
      fieldNN w ∉ ([0x07, 0x0A, 0x15, 0x18, 0x1E, 0x29, 0x33, 0x55, 0x65] : List Byte) := by
  unfold decodeFamilyF
  simp only [List.mem_cons, List.not_mem_nil, or_false, ← BitVec.toNat_inj, BitVec.reduceToNat]
  split
  case h_10 =>
    refine iff_of_true rfl ?_
    simp only [imp_false] at *
    omega
  all_goals next hnn => simp [hnn]

/-- Settles O17, by the family of the word: five families have illegal words, the last of them the value left over. -/
theorem illegalWordsAreThoseListed : Obligations.IllegalWordsAreThoseListed := by
  intro w
  unfold decodeWord
  split
  case h_1 h => exact iff_of_false (decodeFamily0_ne_error w _) (by simp [← BitVec.toNat_inj, h])
  case h_6 h => simp [decodeFamily5_unrecognized_iff, show fieldF w = 0x5 from BitVec.eq_of_toNat_eq h]
  case h_9 h => simp [decodeFamily8_unrecognized_iff, show fieldF w = 0x8 from BitVec.eq_of_toNat_eq h]
  case h_10 h => simp [decodeFamily9_unrecognized_iff, show fieldF w = 0x9 from BitVec.eq_of_toNat_eq h]
  case h_15 h => simp [decodeFamilyE_unrecognized_iff, show fieldF w = 0xE from BitVec.eq_of_toNat_eq h]
  case h_16 =>
    have hF : (fieldF w).toNat = 0xF := by
      have := (fieldF w).isLt
      simp only [imp_false] at *
      omega
    simp [decodeFamilyF_unrecognized_iff, show fieldF w = 0xF from BitVec.eq_of_toNat_eq hF]
  all_goals next h => exact iff_of_false nofun (by simp [← BitVec.toNat_inj, h])

end Sys2Proof

/-! PROOF. Round trips: SYS, a CALL and its RET, and a dump and its load (spec/40_control_flow.md R111, R112, R114,
spec/42_index_memory.md R177). -/

namespace Sys2Proof.Machine

/-- Settles O19. -/
theorem sysOnlyAdvancesPc : Obligations.SysOnlyAdvancesPc :=
  fun _ s => ⟨_, rfl, rfl, changesOnly_goto s _⟩

/-- Settles O23: RET pops the entry that CALL pushed, which is the one entry written. -/
theorem callThenReturnComesBack : Obligations.CallThenReturnComesBack := by
  intro nnn s hfree
  refine ⟨_, _, exec_call_ok nnn hfree, exec_ret_ok s.sp.val.succ_pos, ?_, rfl, rfl, fun k hk => ?_⟩
  · exact congrArg (· + 2) (Vector.getElem_set_self hfree)
  · exact Vector.getElem_set_ne hfree k.isLt hk.ne'

/-- Settles O41: the load reads the bytes at the addresses the dump stored them at, whatever the registers hold. -/
theorem dumpThenLoadRestoresRegisters : Obligations.DumpThenLoadRestoresRegisters := by
  intro x s v h
  obtain ⟨t, hdump, hstored, _, hti, _⟩ := (dumpStoresRegistersOrFaults x s).1 h
  obtain ⟨u, hload, hregs, hui, _⟩ := (loadFillsRegistersOrFaults x { t with i := s.i, v := v }).1 h
  refine ⟨t, u, hdump, hload, fun r hr => ?_, hti, hui⟩
  rw [hregs, if_pos hr]
  exact hstored r hr

end Sys2Proof.Machine

/-! PROOF. The draw laws: a second draw of the same sprite, and a draw on a cleared screen (spec/43_display.md R191,
R192, R194, R195; log entry 18). -/

namespace Sys2Proof.Machine

/-! ### The same cells drawn twice -/

theorem drawn_twice_restores {cover : Nat → Nat → Prop} {c c' c'' : Framebuffer × Bool} {flag : Bool}
    (h : Drawn cover c c') (h' : Drawn cover (c'.1, flag) c'') : c''.1 = c.1 := by
  obtain ⟨hinverted, hkept, _⟩ := h
  obtain ⟨hinverted', hkept', _⟩ := h'
  refine framebuffer_ext fun px py _ _ => ?_
  by_cases hcov : cover px py
  · rw [hinverted' px py hcov, hinverted px py hcov, Bool.not_not]
  · rw [hkept' px py hcov, hkept px py hcov]

/-- The second drawing meets the inverted cells, so it collides where a drawn cell was 0 at first. -/
theorem drawn_twice_collision_iff {cover : Nat → Nat → Prop} {c c' c'' : Framebuffer × Bool}
    (h : Drawn cover c c') (h' : Drawn cover (c'.1, false) c'') :
    c''.2 = true ↔ ∃ px py, cover px py ∧ pixel c.1 px py = false := by
  obtain ⟨hinverted, _, _⟩ := h
  rw [drawn_collision_iff h']
  refine exists₂_congr fun px py => and_congr_right fun hcov => ?_
  rw [hinverted px py hcov, Bool.not_eq_true']

/-- Settles O45: with X and Y not F, the first draw leaves the coordinates, I and memory, so the second draws the same
cells. -/
theorem drawingTwiceRestoresTheScreen : Obligations.DrawingTwiceRestoresTheScreen := by
  intro x y n s hx hy h
  obtain ⟨c, hexec, hdrawn⟩ := exec_drw_ok h
  have hvx : (commitDraw s c).reg x = s.reg x := reg_commitDraw_other s c hx
  have hvy : (commitDraw s c).reg y = s.reg y := reg_commitDraw_other s c hy
  obtain ⟨c', hexec', hdrawn'⟩ := exec_drw_ok (x := x) (y := y) (n := n) (s := commitDraw s c)
    (by rw [hvx, hvy]; exact h)
  rw [hvx, hvy] at hdrawn'
  refine ⟨_, _, hexec, hexec', drawn_twice_restores hdrawn hdrawn', ?_, ?_⟩
  · rw [reg_commitDraw_vf, flagByte_eq_one]
    exact drawn_twice_collision_iff hdrawn hdrawn'
  · rw [reg_commitDraw_vf]
    exact flagByte_eq_zero_or_one c'.2

/-! ### A sprite on a full screen -/

/-- A drawable sprite covers cells of the grid only (R193). -/
theorem on_grid_of_covers {m : Memory} {base x0 y0 n px py : Nat} (h : drawable m base x0 y0 n)
    (hcov : covers m base x0 y0 n px py) : px < 64 ∧ py < 32 := by
  obtain ⟨r, c, hr, hc, rfl, rfl, hbit⟩ := hcov
  obtain ⟨_, hgrid⟩ := h r hr
  have := hgrid c hc hbit
  omega

/-- The reset state with every cell set. One row drawn from it is 0xF0, the top of the glyph 0, at (0, 0). -/
def allCellsSet : State := State.reset.setFb (Vector.replicate 32 (Vector.replicate 64 true))

theorem pixel_allCellsSet {px py : Nat} (h : px < 64 ∧ py < 32) : pixel allCellsSet.fb px py = true := by
  rw [pixel, dif_pos h]
  simp only [allCellsSet, State.setFb_fb, Vector.getElem_replicate]

/-- Refutes O46: the row 0xF0 drawn twice on a full screen. Its bit at (0, 0) is set, so the statement claims a
collision of the second draw, and by O45 some covered cell was 0 before the first. -/
theorem not_secondDrawCollidesWheneverTheSpriteHasABit :
    ¬ Obligations.SecondDrawCollidesWheneverTheSpriteHasABit := by
  intro h
  have hx : (1 : Reg) ≠ vf := by decide
  have hy : (2 : Reg) ≠ vf := by decide
  have hdraw : drawable allCellsSet.mem allCellsSet.i.toNat (allCellsSet.reg 1).toNat (allCellsSet.reg 2).toNat
      (1 : Nibble).toNat := by decide
  have hbit : covers allCellsSet.mem allCellsSet.i.toNat (allCellsSet.reg 1).toNat (allCellsSet.reg 2).toNat
      (1 : Nibble).toNat 0 0 := ⟨0, 0, by decide⟩
  obtain ⟨t, u, ht, hu, _, hcollides, _⟩ := drawingTwiceRestoresTheScreen 1 2 1 allCellsSet hx hy hdraw
  have hvf : u.reg vf = 1 := (h 1 2 1 allCellsSet t u hx hy hdraw ht hu).mpr ⟨0, 0, hbit⟩
  obtain ⟨px, py, hcov, hclear⟩ := hcollides.mp hvf
  rw [pixel_allCellsSet (on_grid_of_covers hdraw hcov)] at hclear
  contradiction

/-! ### A draw on a cleared screen -/

theorem drawn_on_clear {cover : Nat → Nat → Prop} {c : Framebuffer × Bool} (h : Drawn cover (clearFb, false) c) :
    c.2 = false ∧ ∀ px py, pixel c.1 px py = true ↔ cover px py := by
  have ⟨hinverted, hkept, _⟩ := h
  refine ⟨?_, fun px py => ?_⟩
  · rw [← Bool.not_eq_true, drawn_collision_iff h]
    simp [pixel_clearFb]
  · by_cases hcov : cover px py
    · simp [hinverted px py hcov, pixel_clearFb, hcov]
    · simp [hkept px py hcov, pixel_clearFb, hcov]

/-- Settles O47: CLS leaves the registers, I and memory, so the sprite still draws. -/
theorem drawAfterClearShowsTheSprite : Obligations.DrawAfterClearShowsTheSprite := by
  intro x y n s h
  obtain ⟨c, hexec, hdrawn⟩ := exec_drw_ok (x := x) (y := y) (n := n) (s := (s.setFb clearFb).next) h
  obtain ⟨hflag, hcells⟩ := drawn_on_clear hdrawn
  refine ⟨_, _, rfl, hexec, ?_, fun px py _ _ => hcells px py⟩
  rw [reg_commitDraw_vf, hflag]
  rfl

end Sys2Proof.Machine

/-! PROOF. Reset, with no image and with one (spec/10_state.md R42, spec/70_reset_and_hazards.md R270, R271). -/

namespace Sys2Proof.Machine

/-- Settles O1: nothing is listed in memory, so an address past the font reads as the fill. -/
theorem resetHoldsTheResetTable : Obligations.ResetHoldsTheResetTable := by
  refine ⟨fun r => ?regs, rfl, rfl, rfl, fun k => ?stack, rfl, rfl, fun k => ?keys, pixel_clearFb, fun _ _ => rfl,
    fun a ha => ?fill, rfl, rfl⟩
  case regs => exact Vector.getElem_replicate r.isLt
  case stack => exact Vector.getElem_replicate k.isLt
  case keys => exact Vector.getElem_replicate k.isLt
  case fill => exact List.getD_eq_default _ _ ha

/-- Settles O2: memory lists nothing and no stack entry is live. -/
theorem resetSatisfiesInvariant : Obligations.ResetSatisfiesInvariant :=
  ⟨Memory.wf_nil, by decide, fun k hk => absurd hk (Nat.not_lt_zero k)⟩

/-- An image that fits is loaded, and the machine constructed again around it (R270, D23). -/
theorem reset_fitting {image : List Byte} (s : State) (h : image.length ≤ Config.progMax) :
    reset image s = { State.reset with mem := constructMem defaults image, draws := s.draws } :=
  if_neg (Nat.not_lt.mpr h)

/-- An image that does not fit is only reported (R271, D30). -/
theorem reset_oversized {image : List Byte} (s : State) (h : Config.progMax < image.length) :
    reset image s = { s with fault := some (.load image.length) } :=
  if_pos h

/-- Settles O57: the three regions of the constructed memory. -/
theorem resetLoadsTheImage : Obligations.ResetLoadsTheImage := by
  intro image s h
  rw [reset_fitting s h]
  refine ⟨fun a ha => ?glyphs, fun k hk => ?image, fun a hpast hout => ?fill, rfl⟩
  case glyphs => rw [read_constructMem, if_neg (by omega), if_pos ha]
  case image => rw [read_constructMem, if_pos (by omega), Nat.add_sub_cancel_left]
  case fill => rw [read_constructMem, if_neg (by omega), if_neg (by omega)]

/-- Settles O58: the record halts the core. -/
theorem oversizedImageIsRejected : Obligations.OversizedImageIsRejected := by
  intro image s h
  rw [reset_oversized s h]
  exact ⟨rfl, cycle_halted nofun⟩

end Sys2Proof.Machine

/-! PROOF. RET and FX0A under the alternative parameters (spec/92_eei_decisions.md D4, D11, D16). -/

namespace Sys2Proof.Machine

/-- EMPTY_RET = noop: RET with no live entry only advances (D4). -/
theorem retOp_noop_empty {s : State} (h : s.sp.val = 0) : retOp .noop s = .next s.next := by
  rcases s.pop_cases with ⟨hlive, _⟩ | ⟨_, hpop⟩
  · omega
  · rw [retOp, hpop]

/-- WAIT_KEY_SELECT = operand_index: FX0A looks at key X, whatever V[X] holds, and cannot fault (D11). -/
theorem waitKeyOp_operandIndex (x : Reg) (s : State) :
    waitKeyOp .operandIndex x s = .next (if s.key x then s.next else s) := by
  have hx : (BitVec.ofNat 8 x.val).toNat = x.val := by
    rw [BitVec.toNat_ofNat]
    omega
  have hslot : keySlot s.pc (waitKeyIndex .operandIndex x (s.reg x)) = .ok x := keySlot_of_toNat s.pc hx
  rw [waitKeyOp, hslot]
  rfl

/-- Settles O60. -/
theorem alternativeControlParametersActAsDecided : Obligations.AlternativeControlParametersActAsDecided := by
  intro p x nnn s
  refine ⟨fun hp => ?sys, fun hp hsp => ?ret, fun hp => ?waitKey⟩
  case sys =>
    rw [execWith, hp]
    rfl
  case ret =>
    rw [execWith, hp, retOp_noop_empty hsp]
    rfl
  case waitKey =>
    rw [execWith, hp, waitKeyOp_operandIndex]
    exact ⟨fun hkey => by rw [if_pos hkey]; rfl, fun hkey => by rw [hkey]; rfl⟩

end Sys2Proof.Machine
